-- ==== Sys2Proof/Word.lean ====
section
/-! DEFINITION. The two widths of the machine: the Word of registers and arithmetic, and the
16-bit cell of memory, the stack and the program counter. -/

namespace Sys2Proof

/-- A Word: an unsigned integer in [0, 32767] (00_scope.md R5, glossary). -/
abbrev Word := BitVec 15

/-- A 16-bit value: the contents of one memory cell, one stack entry, or the pc
(00_scope.md R6: CELL_BITS, STACK_ENTRY_BITS, PC_BITS). -/
abbrev Cell := BitVec 16

end Sys2Proof
end

