-- ==== Sys2Proof/Machine/Alu.lean ====
section
/-! DEFINITION. The modulo arithmetic unit (40_execution_engine.md R74, R75): the functions on Words,
computed exactly on numbers and then narrowed to 15 bits. -/

namespace Sys2Proof.Machine

/-- `add15(b, c) = (b + c) mod 32768` (40_execution_engine.md R74). -/
def add15 (b c : Word) : Word := BitVec.ofNat 15 (b.toNat + c.toNat)

/-- `mul15(b, c) = (b × c) mod 32768` (40_execution_engine.md R74). -/
def mul15 (b c : Word) : Word := BitVec.ofNat 15 (b.toNat * c.toNat)

/-- `rem15(b, c) = b mod c`, used only for c ≠ 0 (40_execution_engine.md R74). -/
def rem15 (b c : Word) : Word := BitVec.ofNat 15 (b.toNat % c.toNat)

/-- `and15(b, c) = b & c` (40_execution_engine.md R74). -/
def and15 (b c : Word) : Word := b &&& c

/-- `or15(b, c) = b | c` (40_execution_engine.md R74). -/
def or15 (b c : Word) : Word := b ||| c

/-- `not15(b) = b ^ 0x7FFF` (40_execution_engine.md R74). -/
def not15 (b : Word) : Word := b ^^^ 0x7FFF#15

end Sys2Proof.Machine
end

