-- ==== Sys2Proof/Config.lean ====
section
/-! DEFINITION. What one CORE is configured with (00_scope.md R6), what the loader hands over at
RESET (70_reset_and_hazards.md R118), and the one free value: what the input source offers. -/

namespace Sys2Proof

/-- The parameters fixed for a run (00_scope.md R6). MEM_SIZE is bounded by 32768 in its type, so
no pc arithmetic on an address inside memory can wrap. -/
structure Params where
  /-- MEM_SIZE, 0 ≤ MEM_SIZE ≤ 32768 (10_state.md R23). -/
  memSize : Fin 32769
  /-- STACK_CAPACITY; `none` is `unbounded`, the default (10_state.md R22). -/
  stackCapacity : Option Nat
  deriving DecidableEq, Repr

/-- What crosses the IMAGE_LOAD port: IMAGE, MEM_SIZE and PAD (10_state.md R24, R25). -/
structure ImageLoad where
  /-- The program image, loaded verbatim from address 0 (20_memory.md R35). -/
  image : List Cell
  /-- MEM_SIZE as the loader asks for it; a load outside R120's bounds is refused. -/
  memSize : Nat
  /-- PAD: the contents of the cells above the image, any function of the address (D4). -/
  pad : Nat → Cell

/-- FREE VALUE (log 3): what the input port offers the `n`-th time a waiting CORE looks at it with
no character delivered before: a character, or nothing yet (40_execution_engine.md R70; D16, D17).
It has no body, so nothing can be proved about which character comes, when, or whether one ever does. -/
opaque Config.freeOffer : Nat → Option Word

end Sys2Proof
end

