-- ==== Sys2Proof/Syntax.lean ====
section
/-! DEFINITION. The instructions: one constructor for each of the 22 rows of spec/opcode_table.json,
and the operands as the decoder classifies them (30_encoding.md R49, R51, R55). -/

namespace Sys2Proof

/-- The eight general registers (10_state.md R13). -/
inductive Reg where
  | r0 | r1 | r2 | r3 | r4 | r5 | r6 | r7
  deriving DecidableEq, Repr

/-- An operand word in its class (30_encoding.md R51): a literal 0..32767, a register reference
32768..32775, or invalid 32776..65535. An invalid word is kept as it stands: the instruction that
holds it raises InvalidOperand (R54). -/
inductive Operand where
  | lit (v : Word)
  | reg (r : Reg)
  | invalid (w : Cell)
  deriving DecidableEq, Repr

/-- The 22 instructions in opcode order (30_encoding.md R55). Slot kinds (D or V) are checked by
`Instr.wellFormed`; `in_` is the spec's `in`, a reserved word of Lean. -/
inductive Instr where
  | halt
  | set (a b : Operand)
  | push (a : Operand)
  | pop (a : Operand)
  | eq (a b c : Operand)
  | gt (a b c : Operand)
  | jmp (a : Operand)
  | jt (a b : Operand)
  | jf (a b : Operand)
  | add (a b c : Operand)
  | mult (a b c : Operand)
  | mod (a b c : Operand)
  | and (a b c : Operand)
  | or (a b c : Operand)
  | not (a b : Operand)
  | rmem (a b : Operand)
  | wmem (a b : Operand)
  | call (a : Operand)
  | ret
  | out (a : Operand)
  | in_ (a : Operand)
  | noop
  deriving DecidableEq, Repr

end Sys2Proof
end

