-- ==== Sys2Proof/Machine/State.lean ====
section
/-! DEFINITION. The state of the CORE as plain data: everything 10_state.md gives the machine, its
parameters, and the model's own record of the ports; the two ways a step can stop; and reset. -/

namespace Sys2Proof.Machine

/-- The register file: eight Words (10_state.md R13). -/
structure RegFile where
  r0 : Word
  r1 : Word
  r2 : Word
  r3 : Word
  r4 : Word
  r5 : Word
  r6 : Word
  r7 : Word
  deriving DecidableEq, Repr

/-- The memory: (address, cell) pairs, addresses strictly rising, no pair holding 0, which is what an
unlisted cell holds (log 1). The unit is the spec's only unit, the 16-bit cell (20_memory.md R38). -/
abbrev Memory := List (Nat × Cell)

/-- RUN_STATE (10_state.md R28). -/
inductive RunState where
  | running
  | halted
  | faulted
  deriving DecidableEq, Repr

/-- The six fault kinds (60_exceptions.md R101). -/
inductive FaultKind where
  | invalidOperand
  | stackUnderflow
  | divideByZero
  | invalidOpcode
  | memoryOutOfBounds
  | stackOverflow
  deriving DecidableEq, Repr

/-- The instruction latch (10_state.md R31): the address and the decoded instruction in progress.
Between two steps it holds something only while an `in` waits (R30). -/
structure Latch where
  ia : Cell
  instr : Instr
  deriving DecidableEq, Repr

/-- One port transaction: a Word emitted by `out`, or a character received by `in` as the port
offered it (10_state.md R25; 44_system_io.md R100). -/
inductive PortEvent where
  | out (v : Word)
  | in_ (c : Word)
  deriving DecidableEq, Repr

/-- The state of the CORE. -/
structure State where
  /-- x[0] to x[7] (10_state.md R13). -/
  regs : RegFile
  /-- The program counter (10_state.md R17). -/
  pc : Cell
  /-- The stack, its top first (10_state.md R20). -/
  stack : List Cell
  /-- The memory cells (10_state.md R23). -/
  mem : Memory
  /-- STATUS.RUN_STATE (10_state.md R28). -/
  runState : RunState
  /-- STATUS.FAULT_KIND (10_state.md R28). -/
  faultKind : Option FaultKind
  /-- FAULT_PC (10_state.md R29). -/
  faultPc : Cell
  /-- The instruction latch; STATUS.WAIT_IN is whether it holds one (10_state.md R30, R31; log 4). -/
  latch : Option Latch
  /-- MEM_SIZE and STACK_CAPACITY (00_scope.md R6). -/
  params : Params
  /-- The port transactions of the run, oldest first (60_exceptions.md R112; log 8). -/
  events : List PortEvent
  /-- MODEL'S OWN: characters the host has put at the input port and the CORE has not taken (log 3). -/
  input : List Word
  /-- MODEL'S OWN: how often a waiting CORE has found no delivered character; the argument of the
  free value `Config.freeOffer` (log 3). -/
  polls : Nat
  deriving DecidableEq, Repr

/-- Why a step of the machine answers no next state. The six faults of 60_exceptions.md are NOT
here: raising one is a next state with the status registers written (R108). -/
inductive Fault where
  /-- Raised by `step` when RUN_STATE is Halted: the CORE takes no step (40_execution_engine.md R71).
  Safe: the model does nothing where the hardware does nothing. -/
  | halted
  /-- Raised by `step` when RUN_STATE is Faulted: the CORE takes no step (40_execution_engine.md R71).
  Safe: the model does nothing where the hardware does nothing. -/
  | faulted
  deriving DecidableEq, Repr

/-- Why an instruction has no meaning. -/
inductive Refusal where
  /-- Raised by `exec` alone, for an instruction of the table without a meaning; no arm does so, every
  instruction having its meaning. Safe: nothing is claimed of such an instruction. -/
  | notModelled (mnemonic : String)
  deriving DecidableEq, Repr

/-- All eight registers zero (10_state.md R16). -/
def RegFile.zero : RegFile := ⟨0#15, 0#15, 0#15, 0#15, 0#15, 0#15, 0#15, 0#15⟩

/-- The machine right after RESET with nothing loaded (10_state.md R32): the empty image, and so by
default MEM_SIZE = 0 (00_scope.md R6; log 2). RESET with an image is `loadImage`. -/
def State.reset : State where
  regs := RegFile.zero
  pc := 0#16
  stack := []
  mem := []
  runState := .running
  faultKind := none
  faultPc := 0#16
  latch := none
  params := { memSize := ⟨0, by decide⟩, stackCapacity := none }
  events := []
  input := []
  polls := 0

end Sys2Proof.Machine
end

