-- ==== Sys2Proof/Machine/Flags.lean ====
section
/-! DEFINITION. The CORE has no flags (10_state.md R19). What stands in their place: the 0-or-1
results of the comparisons, the test of the conditional jumps, and the STATUS word that shows the
run state to the host. -/

namespace Sys2Proof.Machine

/-- `eq15(b, c)`: 1 if equal, else 0 (40_execution_engine.md R74). -/
def eq15 (b c : Word) : Word := if b = c then 1#15 else 0#15

/-- `gt15(b, c)`: 1 if b > c unsigned, else 0 (40_execution_engine.md R74). -/
def gt15 (b c : Word) : Word := if c.toNat < b.toNat then 1#15 else 0#15

/-- The test of `jt` and `jf`: whether the value is non-zero (43_control_transfer.md R91, R92). -/
def isNonZero (v : Word) : Bool := v != 0#15

/-- The code of RUN_STATE (10_state.md R28). -/
def RunState.code : RunState → Nat
  | .running => 0
  | .halted => 1
  | .faulted => 2

/-- The code of FAULT_KIND (10_state.md R28; 60_exceptions.md R101). -/
def FaultKind.code : FaultKind → Nat
  | .invalidOperand => 1
  | .stackUnderflow => 2
  | .divideByZero => 3
  | .invalidOpcode => 4
  | .memoryOutOfBounds => 5
  | .stackOverflow => 6

/-- STATUS.WAIT_IN: an `in` waits for the input port (10_state.md R28, R30). -/
def State.waitIn (s : State) : Bool := s.latch.isSome

/-- FAULT_KIND as its number, 0 for none (10_state.md R28). -/
def State.faultKindCode (s : State) : Nat :=
  match s.faultKind with
  | none => 0
  | some k => k.code

/-- The STATUS word: RUN_STATE in bits 1:0, WAIT_IN in bit 2, FAULT_KIND in bits 5:3, the rest
hard-wired 0 (10_state.md R28). -/
def State.status (s : State) : Cell :=
  BitVec.ofNat 16 (s.runState.code + 4 * s.waitIn.toNat + 8 * s.faultKindCode)

/-- The STATUS port: host index 0 is STATUS, host index 1 is FAULT_PC, and there is no other
(10_state.md R25, R28, R29). -/
def State.readHostRegister (s : State) (index : Nat) : Option Cell :=
  match index with
  | 0 => some s.status
  | 1 => some s.faultPc
  | _ => none

end Sys2Proof.Machine
end

