-- ==== Sys2Proof/Machine/Ops.lean ====
section
/-! DEFINITION. The named operations over registers, memory, stack, pc, ports and run state, raising
a fault and halting among them. Every meaning is written over these. -/

namespace Sys2Proof.Machine

/-- What a step or a meaning answers. -/
abbrev Result := Host.Outcome State Fault Refusal

/-! ## Registers -/

/-- `x[i]` (00_scope.md R8). -/
def RegFile.get (f : RegFile) : Reg → Word
  | .r0 => f.r0
  | .r1 => f.r1
  | .r2 => f.r2
  | .r3 => f.r3
  | .r4 => f.r4
  | .r5 => f.r5
  | .r6 => f.r6
  | .r7 => f.r7

/-- The register file with one register replaced. -/
def RegFile.set (f : RegFile) (r : Reg) (v : Word) : RegFile :=
  match r with
  | .r0 => { f with r0 := v }
  | .r1 => { f with r1 := v }
  | .r2 => { f with r2 := v }
  | .r3 => { f with r3 := v }
  | .r4 => { f with r4 := v }
  | .r5 => { f with r5 := v }
  | .r6 => { f with r6 := v }
  | .r7 => { f with r7 := v }

/-- Read register `r` (00_scope.md R8). -/
def State.readReg (s : State) (r : Reg) : Word := s.regs.get r

/-- Write register `r`: the stored value is v mod 32768, whatever the width of v (00_scope.md R8;
10_state.md R15). -/
def State.writeReg {w : Nat} (s : State) (r : Reg) (v : BitVec w) : State :=
  { s with regs := s.regs.set r (v.setWidth 15) }

/-! ## Memory -/

/-- The contents of cell `a`; an unlisted cell holds 0 (log 1). -/
def Memory.read : Memory → Nat → Cell
  | [], _ => 0#16
  | (b, v) :: m, a => if b = a then v else Memory.read m a

/-- Store `v` in cell `a`, keeping the canonical form. -/
def Memory.write : Memory → Nat → Cell → Memory
  | [], a, v => if v = 0#16 then [] else [(a, v)]
  | (b, w) :: m, a, v =>
    if a < b then (if v = 0#16 then (b, w) :: m else (a, v) :: (b, w) :: m)
    else if a = b then (if v = 0#16 then m else (a, v) :: m)
    else (b, w) :: Memory.write m a v

/-- The canonical form: addresses strictly rising, no entry holding what an unlisted cell holds. -/
abbrev Memory.wf (m : Memory) : Prop :=
  m.Pairwise (fun p q => p.1 < q.1) ∧ ∀ p ∈ m, p.2 ≠ 0#16

/-- The memory that holds the given cells from address `a` up. -/
def Memory.ofCells : Nat → List Cell → Memory
  | _, [] => []
  | a, v :: vs => if v = 0#16 then Memory.ofCells (a + 1) vs else (a, v) :: Memory.ofCells (a + 1) vs

/-- MEM_SIZE (10_state.md R23). -/
def State.memSize (s : State) : Nat := s.params.memSize.val

/-- `MemRead(a, 1)` (00_scope.md R9). -/
def State.memRead (s : State) (a : Nat) : Cell := Memory.read s.mem a

/-- `MemWrite(a, 1, v)` (00_scope.md R9). -/
def State.memWrite (s : State) (a : Nat) (v : Cell) : State :=
  { s with mem := Memory.write s.mem a v }

/-! ## Ending an instruction -/

/-- `Next`: pc takes the default next, ia + 1 + arity (40_execution_engine.md R63, R68). -/
def State.advance (s : State) (arity : Nat) : State :=
  { s with pc := s.pc + BitVec.ofNat 16 (1 + arity) }

/-- `Jump(t)`: pc takes the target, unchecked (40_execution_engine.md R64, R68). -/
def State.jump (s : State) (t : Cell) : State := { s with pc := t }

/-- `raise F(ia)`: taking a fault (60_exceptions.md R108). RUN_STATE, FAULT_KIND, FAULT_PC and
WAIT_IN are written and nothing else; pc still holds ia, or the address whose fetch failed. -/
def State.raise (s : State) (k : FaultKind) : State :=
  { s with runState := .faulted, faultKind := some k, faultPc := s.pc, latch := none }

/-- `halt_run()`: the clean halt; there is no return from it or from a fault but RESET
(60_exceptions.md R110, R111). -/
def State.haltRun (s : State) : State := { s with runState := .halted }

/-- `Wait`: the instruction stays latched until a character comes (40_execution_engine.md R68, R70). -/
def State.wait (s : State) (i : Instr) : State :=
  { s with latch := some { ia := s.pc, instr := i } }

/-! ## Checked accesses: each raises its fault or goes on -/

/-- Read cell `a` for `rmem`, checked against MEM_SIZE first (20_memory.md R40). -/
def State.readingCell (s : State) (a : Word) (k : Cell → State) : State :=
  if s.memSize ≤ a.toNat then s.raise .memoryOutOfBounds else k (s.memRead a.toNat)

/-- Write cell `a` for `wmem`, checked against MEM_SIZE first (20_memory.md R40). -/
def State.writingCell (s : State) (a : Word) (v : Cell) (k : State → State) : State :=
  if s.memSize ≤ a.toNat then s.raise .memoryOutOfBounds else k (s.memWrite a.toNat v)

/-- The stack is at a finite STACK_CAPACITY (10_state.md R22). -/
def State.stackFull (s : State) : Bool :=
  match s.params.stackCapacity with
  | none => false
  | some n => s.stack.length == n

/-- `Push(v)` after the capacity check (00_scope.md R10; 60_exceptions.md R107). -/
def State.pushing (s : State) (v : Cell) (k : State → State) : State :=
  if s.stackFull then s.raise .stackOverflow else k { s with stack := v :: s.stack }

/-- `Pop()` after the `Empty()` test; what an empty stack means is the caller's (00_scope.md R10). -/
def State.popping (s : State) (onEmpty : State) (k : Cell → State → State) : State :=
  match s.stack with
  | [] => onEmpty
  | e :: rest => k e { s with stack := rest }

/-! ## Ports -/

/-- `Emit(v)`: one OUT transaction (00_scope.md R10; 44_system_io.md R97). -/
def State.emit (s : State) (v : Word) : State := { s with events := s.events ++ [.out v] }

/-- What the input port offers now: the oldest character the host has delivered, else the free
value, which may be nothing (40_execution_engine.md R70; log 3). -/
def State.offered (s : State) : Option Word :=
  match s.input with
  | c :: _ => some c
  | [] => Config.freeOffer s.polls

/-- The port after the CORE has looked at it: a delivered character is taken, or the next look at an
empty port is another one (log 3). -/
def State.polled (s : State) : State :=
  match s.input with
  | _ :: rest => { s with input := rest }
  | [] => { s with polls := s.polls + 1 }

/-- Carriage return (13) becomes newline (10), everything else stays (44_system_io.md R98). -/
def normalizeInput (c : Word) : Word := if c = 13#15 then 10#15 else c

/-- `in_complete(c)` when the port offers a character, else the wait goes on with nothing changed
but the model's poll count (40_execution_engine.md R70). -/
def State.receiving (s : State) (ia : Cell) (r : Reg) : State :=
  match s.offered with
  | none => s.polled
  | some c =>
    { (s.polled.writeReg r (normalizeInput c)) with
      pc := ia + 2#16, latch := none, events := s.events ++ [.in_ c] }

end Sys2Proof.Machine
end

