-- ==== Sys2Proof/Machine/Operands.lean ====
section
/-! DEFINITION. The operand forms: `resolve` of a V slot, `regidx` of a D slot, and the check of each
slot before anything of the instruction happens (30_encoding.md R52 to R54). -/

namespace Sys2Proof.Machine

/-- `resolve(v)`: a literal is itself, a register reference reads the register; none for a word that
fails the check of a V slot (30_encoding.md R52, R54). -/
def State.resolve (s : State) : Operand → Option Word
  | .lit v => some v
  | .reg r => some (s.readReg r)
  | .invalid _ => none

/-- `regidx(v)`: the register a D slot names; none for a word that fails the check of a D slot
(30_encoding.md R53, R54). -/
def regidx : Operand → Option Reg
  | .lit _ => none
  | .reg r => some r
  | .invalid _ => none

/-- Go on with the value of a V slot, or raise InvalidOperand (30_encoding.md R54). -/
def State.withValue (s : State) (o : Operand) (k : Word → State) : State :=
  match s.resolve o with
  | some v => k v
  | none => s.raise .invalidOperand

/-- Go on with the register of a D slot, or raise InvalidOperand (30_encoding.md R54). -/
def State.withDest (s : State) (o : Operand) (k : Reg → State) : State :=
  match regidx o with
  | some r => k r
  | none => s.raise .invalidOperand

/-- Format F2DV with a result written to the D slot: the value is read before the write
(40_execution_engine.md R66). -/
def State.unary (s : State) (a b : Operand) (f : Word → Word) : State :=
  s.withDest a fun r => s.withValue b fun vb => (s.writeReg r (f vb)).advance 2

/-- Format F3DVV with a result written to the D slot: both values are read before the write
(40_execution_engine.md R66). -/
def State.binary (s : State) (a b c : Operand) (f : Word → Word → Word) : State :=
  s.withDest a fun r => s.withValue b fun vb => s.withValue c fun vc =>
    (s.writeReg r (f vb vc)).advance 3

end Sys2Proof.Machine
end

