-- ==== Sys2Proof/Machine/ArithmeticLogic.lean ====
section
/-! DEFINITION. The instructions that compute: eq, gt, add, mult, mod, and, or, not
(42_arithmetic_logic.md). -/

namespace Sys2Proof.Machine

/-- `eq a,b,c` (42_arithmetic_logic.md R82). -/
def execEq (a b c : Operand) (s : State) : Result := .next (s.binary a b c eq15)

/-- `gt a,b,c` (42_arithmetic_logic.md R83). -/
def execGt (a b c : Operand) (s : State) : Result := .next (s.binary a b c gt15)

/-- `add a,b,c` (42_arithmetic_logic.md R84). -/
def execAdd (a b c : Operand) (s : State) : Result := .next (s.binary a b c add15)

/-- `mult a,b,c` (42_arithmetic_logic.md R85). -/
def execMult (a b c : Operand) (s : State) : Result := .next (s.binary a b c mul15)

/-- `mod a,b,c` (42_arithmetic_logic.md R86): a divisor of 0 raises DivideByZero. -/
def execMod (a b c : Operand) (s : State) : Result :=
  .next (s.withDest a fun r => s.withValue b fun vb => s.withValue c fun vc =>
    if vc = 0#15 then s.raise .divideByZero else (s.writeReg r (rem15 vb vc)).advance 3)

/-- `and a,b,c` (42_arithmetic_logic.md R87). -/
def execAnd (a b c : Operand) (s : State) : Result := .next (s.binary a b c and15)

/-- `or a,b,c` (42_arithmetic_logic.md R88). -/
def execOr (a b c : Operand) (s : State) : Result := .next (s.binary a b c or15)

/-- `not a,b` (42_arithmetic_logic.md R89). -/
def execNot (a b : Operand) (s : State) : Result := .next (s.unary a b not15)

end Sys2Proof.Machine
end

