-- ==== Sys2Proof/Machine/ControlTransfer.lean ====
section
/-! DEFINITION. The control transfer instructions: jmp, jt, jf, call, ret (43_control_transfer.md). -/

namespace Sys2Proof.Machine

/-- `jmp a` (43_control_transfer.md R90). -/
def execJmp (a : Operand) (s : State) : Result :=
  .next (s.withValue a fun t => s.jump (t.setWidth 16))

/-- `jt a,b` (43_control_transfer.md R91). -/
def execJt (a b : Operand) (s : State) : Result :=
  .next (s.withValue a fun va => s.withValue b fun t =>
    if isNonZero va then s.jump (t.setWidth 16) else s.advance 2)

/-- `jf a,b` (43_control_transfer.md R92). -/
def execJf (a b : Operand) (s : State) : Result :=
  .next (s.withValue a fun va => s.withValue b fun t =>
    if isNonZero va then s.advance 2 else s.jump (t.setWidth 16))

/-- `call a` (43_control_transfer.md R93): the return address ia + 2 is pushed unreduced. -/
def execCall (a : Operand) (s : State) : Result :=
  .next (s.withValue a fun t => s.pushing (s.pc + 2#16) fun s' => s'.jump (t.setWidth 16))

/-- `ret` (43_control_transfer.md R94): a clean halt when the stack is empty. -/
def execRet (s : State) : Result := .next (s.popping s.haltRun fun t s' => s'.jump t)

end Sys2Proof.Machine
end

