-- ==== Sys2Proof/Machine/DataMovement.lean ====
section
/-! DEFINITION. The data movement instructions: set, push, pop, rmem, wmem (41_data_movement.md). -/

namespace Sys2Proof.Machine

/-- `set a,b` (41_data_movement.md R77). -/
def execSet (a b : Operand) (s : State) : Result := .next (s.unary a b id)

/-- `push a` (41_data_movement.md R78). -/
def execPush (a : Operand) (s : State) : Result :=
  .next (s.withValue a fun v => s.pushing (v.setWidth 16) fun s' => s'.advance 1)

/-- `pop a` (41_data_movement.md R79): the register takes the entry mod 32768. -/
def execPop (a : Operand) (s : State) : Result :=
  .next (s.withDest a fun r =>
    s.popping (s.raise .stackUnderflow) fun e s' => (s'.writeReg r e).advance 1)

/-- `rmem a,b` (41_data_movement.md R80): the register takes the cell mod 32768. -/
def execRmem (a b : Operand) (s : State) : Result :=
  .next (s.withDest a fun r => s.withValue b fun addr =>
    s.readingCell addr fun w => (s.writeReg r w).advance 2)

/-- `wmem a,b` (41_data_movement.md R81). -/
def execWmem (a b : Operand) (s : State) : Result :=
  .next (s.withValue a fun addr => s.withValue b fun v =>
    s.writingCell addr (v.setWidth 16) fun s' => s'.advance 2)

end Sys2Proof.Machine
end

