-- ==== Sys2Proof/Machine/SystemIo.lean ====
section
/-! DEFINITION. The system and port instructions: halt, out, in, noop (44_system_io.md). -/

namespace Sys2Proof.Machine

/-- `halt` (44_system_io.md R96). -/
def execHalt (s : State) : Result := .next s.haltRun

/-- `out a` (44_system_io.md R97). -/
def execOut (a : Operand) (s : State) : Result :=
  .next (s.withValue a fun v => (s.emit v).advance 1)

/-- `in a` (44_system_io.md R98), both transitions: with WAIT_IN = 0 it begins the wait, with
WAIT_IN = 1 it looks at the port and completes when a character is offered (log 4). -/
def execIn (a : Operand) (s : State) : Result :=
  .next (s.withDest a fun r =>
    match s.latch with
    | none => s.wait (.in_ a)
    | some l => s.receiving l.ia r)

/-- `noop` (44_system_io.md R99). -/
def execNoop (s : State) : Result := .next (s.advance 0)

end Sys2Proof.Machine
end

