-- ==== Sys2Proof/WellFormed.lean ====
section
/-! DEFINITION. Which instructions are legal: the check of every operand slot at decode
(30_encoding.md R54, R57). An instruction that fails it raises InvalidOperand. -/

namespace Sys2Proof

/-- The kind of an operand slot (30_encoding.md R49). -/
inductive SlotKind where
  | dest
  | value
  deriving DecidableEq, Repr

/-- `check(v, kind)` of 30_encoding.md R54: no slot takes an invalid word, and a D slot takes no
literal. -/
def Operand.fits : Operand → SlotKind → Bool
  | .lit _, .dest => false
  | .lit _, .value => true
  | .reg _, _ => true
  | .invalid _, _ => false

/-- The operand slots of an instruction in order, with their kinds (30_encoding.md R49, R55). -/
def Instr.slots : Instr → List (Operand × SlotKind)
  | .halt => []
  | .set a b => [(a, .dest), (b, .value)]
  | .push a => [(a, .value)]
  | .pop a => [(a, .dest)]
  | .eq a b c => [(a, .dest), (b, .value), (c, .value)]
  | .gt a b c => [(a, .dest), (b, .value), (c, .value)]
  | .jmp a => [(a, .value)]
  | .jt a b => [(a, .value), (b, .value)]
  | .jf a b => [(a, .value), (b, .value)]
  | .add a b c => [(a, .dest), (b, .value), (c, .value)]
  | .mult a b c => [(a, .dest), (b, .value), (c, .value)]
  | .mod a b c => [(a, .dest), (b, .value), (c, .value)]
  | .and a b c => [(a, .dest), (b, .value), (c, .value)]
  | .or a b c => [(a, .dest), (b, .value), (c, .value)]
  | .not a b => [(a, .dest), (b, .value)]
  | .rmem a b => [(a, .dest), (b, .value)]
  | .wmem a b => [(a, .value), (b, .value)]
  | .call a => [(a, .value)]
  | .ret => []
  | .out a => [(a, .value)]
  | .in_ a => [(a, .dest)]
  | .noop => []

/-- Every slot passes its check (30_encoding.md R54, R57 cases 2 and 3). -/
def Instr.wellFormed (i : Instr) : Bool :=
  i.slots.all fun slot => slot.1.fits slot.2

end Sys2Proof
end

