-- ==== Sys2Proof/Decode.lean ====
section
/-! DEFINITION. Decoding memory words into an instruction, and the encoder after it, both written
from the opcode map and the operand classes of 30_encoding.md (R48 to R58). -/

namespace Sys2Proof

/-- The index i of register x[i] (10_state.md R13). -/
def Reg.index : Reg → Nat
  | .r0 => 0
  | .r1 => 1
  | .r2 => 2
  | .r3 => 3
  | .r4 => 4
  | .r5 => 5
  | .r6 => 6
  | .r7 => 7

/-- The register of an index, none from 8 up (10_state.md R13). -/
def Reg.ofIndex : Nat → Option Reg
  | 0 => some .r0
  | 1 => some .r1
  | 2 => some .r2
  | 3 => some .r3
  | 4 => some .r4
  | 5 => some .r5
  | 6 => some .r6
  | 7 => some .r7
  | _ => none

/-- The class of an operand word (30_encoding.md R51). -/
def Operand.ofCell (v : Cell) : Operand :=
  if v.toNat < 32768 then .lit (v.setWidth 15)
  else match Reg.ofIndex (v.toNat - 32768) with
    | some r => .reg r
    | none => .invalid v

/-- Why a word sequence is no instruction: it ends before the opcode or an operand word, or its
opcode word is 22 or more (30_encoding.md R50, R58). -/
inductive DecodeError where
  | truncated
  | invalidOpcode
  deriving DecidableEq, Repr

/-- One operand word follows the opcode word (formats F1V and F1D, R49). -/
def decode1 (make : Operand → Instr) : List Cell → Except DecodeError (Instr × List Cell)
  | a :: rest => .ok (make (.ofCell a), rest)
  | _ => .error .truncated

/-- Two operand words follow the opcode word (formats F2DV and F2VV, R49). -/
def decode2 (make : Operand → Operand → Instr) :
    List Cell → Except DecodeError (Instr × List Cell)
  | a :: b :: rest => .ok (make (.ofCell a) (.ofCell b), rest)
  | _ => .error .truncated

/-- Three operand words follow the opcode word (format F3DVV, R49). -/
def decode3 (make : Operand → Operand → Operand → Instr) :
    List Cell → Except DecodeError (Instr × List Cell)
  | a :: b :: c :: rest => .ok (make (.ofCell a) (.ofCell b) (.ofCell c), rest)
  | _ => .error .truncated

/-- The opcode map (30_encoding.md R55), with the words after the opcode word. -/
def decodeOpcode (op : Nat) (rest : List Cell) : Except DecodeError (Instr × List Cell) :=
  match op with
  | 0 => .ok (.halt, rest)
  | 1 => decode2 .set rest
  | 2 => decode1 .push rest
  | 3 => decode1 .pop rest
  | 4 => decode3 .eq rest
  | 5 => decode3 .gt rest
  | 6 => decode1 .jmp rest
  | 7 => decode2 .jt rest
  | 8 => decode2 .jf rest
  | 9 => decode3 .add rest
  | 10 => decode3 .mult rest
  | 11 => decode3 .mod rest
  | 12 => decode3 .and rest
  | 13 => decode3 .or rest
  | 14 => decode2 .not rest
  | 15 => decode2 .rmem rest
  | 16 => decode2 .wmem rest
  | 17 => decode1 .call rest
  | 18 => .ok (.ret, rest)
  | 19 => decode1 .out rest
  | 20 => decode1 .in_ rest
  | 21 => .ok (.noop, rest)
  | _ => .error .invalidOpcode

/-- Decode the instruction at the head of a word sequence and return the words after it. The opcode
word is raw and alone fixes the length (30_encoding.md R48, R50, R58). Operand words are classified;
whether a slot takes its class is `Instr.wellFormed`. -/
def decode : List Cell → Except DecodeError (Instr × List Cell)
  | [] => .error .truncated
  | op :: rest => decodeOpcode op.toNat rest

/-! ## The encoder -/

/-- The word of an operand (30_encoding.md R51, R60). -/
def Operand.toCell : Operand → Cell
  | .lit v => v.setWidth 16
  | .reg r => BitVec.ofNat 16 (32768 + r.index)
  | .invalid w => w

/-- The opcode word's value (30_encoding.md R55). -/
def Instr.opcode : Instr → Nat
  | .halt => 0
  | .set _ _ => 1
  | .push _ => 2
  | .pop _ => 3
  | .eq _ _ _ => 4
  | .gt _ _ _ => 5
  | .jmp _ => 6
  | .jt _ _ => 7
  | .jf _ _ => 8
  | .add _ _ _ => 9
  | .mult _ _ _ => 10
  | .mod _ _ _ => 11
  | .and _ _ _ => 12
  | .or _ _ _ => 13
  | .not _ _ => 14
  | .rmem _ _ => 15
  | .wmem _ _ => 16
  | .call _ => 17
  | .ret => 18
  | .out _ => 19
  | .in_ _ => 20
  | .noop => 21

/-- The number of operand words of an instruction (30_encoding.md R55). -/
def Instr.arity (i : Instr) : Nat := i.slots.length

/-- The words of an instruction: its opcode word, then one word for each operand slot in order
(30_encoding.md R48, R60). -/
def Instr.encode (i : Instr) : List Cell :=
  BitVec.ofNat 16 i.opcode :: i.slots.map fun slot => slot.1.toCell

/-- ARITY[op] of 30_encoding.md R55; none for an opcode word that selects no instruction. -/
def arityOf : Nat → Option Nat
  | 0 => some 0
  | 1 => some 2
  | 2 => some 1
  | 3 => some 1
  | 4 => some 3
  | 5 => some 3
  | 6 => some 1
  | 7 => some 2
  | 8 => some 2
  | 9 => some 3
  | 10 => some 3
  | 11 => some 3
  | 12 => some 3
  | 13 => some 3
  | 14 => some 2
  | 15 => some 2
  | 16 => some 2
  | 17 => some 1
  | 18 => some 0
  | 19 => some 1
  | 20 => some 1
  | 21 => some 0
  | _ => none

/-! ## Words from the outside -/

/-- The four words of a number whose bit 0 is the least significant bit of the first word, the
later words' bits counting on from it. -/
def wordsOfNumber (w : Nat) : List Cell :=
  [BitVec.ofNat 16 w, BitVec.ofNat 16 (w / 2 ^ 16),
   BitVec.ofNat 16 (w / 2 ^ 32), BitVec.ofNat 16 (w / 2 ^ 48)]

/-- The instruction the decoder reads from the `nbits` low bits of `w`, every bit above being 0. -/
def decodeTableWord (nbits w : Nat) : Option Instr :=
  match decode (wordsOfNumber (w % 2 ^ nbits)) with
  | .ok (i, _) => some i
  | .error _ => none

/-- The image words of a byte sequence, low byte first (20_memory.md R37); none for an odd number of
bytes, of which the spec says nothing (91_not_in_source.md N11). -/
def imageOfBytes : List (BitVec 8) → Option (List Cell)
  | [] => some []
  | [_] => none
  | lo :: hi :: rest => (imageOfBytes rest).map fun ws => (hi ++ lo) :: ws

end Sys2Proof
end

