-- ==== Sys2Proof/Machine/Fetch.lean ====
section
/-! DEFINITION. Fetching the next instruction's words from memory, with the checks of
40_execution_engine.md R62, and placing words where the next fetch finds them. -/

namespace Sys2Proof.Machine

/-- The `n` cells from address `a` up, cut off at MEM_SIZE: no cell outside memory is read
(20_memory.md R40). -/
def State.cellsFrom (s : State) : Nat → Nat → List Cell
  | _, 0 => []
  | a, n + 1 => if a < s.memSize then s.memRead a :: s.cellsFrom (a + 1) n else []

/-- The fault a failed decode raises: a missing opcode or operand word lies outside memory
(MemoryOutOfBounds, D6), an opcode word of 22 or more is InvalidOpcode (40_execution_engine.md R62). -/
def DecodeError.faultKind : DecodeError → FaultKind
  | .truncated => .memoryOutOfBounds
  | .invalidOpcode => .invalidOpcode

/-- Fetch and decode at pc (40_execution_engine.md R62): an instruction is at most four words long
(30_encoding.md R48), and the decoder takes only the words the opcode asks for. The slot checks that
end R62 are made by the instruction's meaning before anything else (log 7). -/
def State.fetch (s : State) : Except FaultKind Instr :=
  match decode (s.cellsFrom s.pc.toNat 4) with
  | .ok (i, _) => .ok i
  | .error e => .error (DecodeError.faultKind e)

/-- What the optional trace observer sees of the next step: ia and the raw words of a decoded
instruction (40_execution_engine.md R73). It reads the state and cannot change it. -/
def State.trace (s : State) : Option (Cell × List Cell) :=
  match s.runState, s.latch, s.fetch with
  | .running, none, .ok i => if i.wellFormed then some (s.pc, i.encode) else none
  | _, _, _ => none

/-- Store words in consecutive cells from address `a` up. -/
def Memory.writeWords : Memory → Nat → List Cell → Memory
  | m, _, [] => m
  | m, a, v :: vs => Memory.writeWords (Memory.write m a v) (a + 1) vs

/-- MEM_SIZE grown, where it must, to hold the cells below `n`; never above 32768. -/
def growMemSize (size : Fin 32769) (n : Nat) : Fin 32769 :=
  if size.val < n then ⟨min n 32768, Nat.lt_succ_of_le (Nat.min_le_right n 32768)⟩ else size

end Sys2Proof.Machine
end

