-- ==== Sys2Proof/Machine/Step.lean ====
section
/-! DEFINITION. One step of the CORE (40_execution_engine.md R69 to R71). -/

namespace Sys2Proof.Machine

/-- One step. Halted and Faulted take none (R71). A waiting `in` goes on from the latch (R70).
Otherwise the instruction at pc is fetched and executed (R62, R69); a failed fetch raises its fault. -/
def step (s : State) : Host.Outcome State Fault Refusal :=
  match s.runState with
  | .halted => .fault .halted
  | .faulted => .fault .faulted
  | .running =>
    match s.latch with
    | some l => exec l.instr s
    | none =>
      match s.fetch with
      | .ok i => exec i s
      | .error k => .next (s.raise k)

/-- `s` with the instruction of the number `w` (its `nbits` low bits, the bits above being 0) stored
where the next step fetches: its four words from pc up, MEM_SIZE grown to hold them, and the CORE
Running with nothing latched. It stands for the host's load of a program (log 2). -/
def State.withFetchWord (s : State) (nbits w : Nat) : State :=
  let size := growMemSize s.params.memSize (s.pc.toNat + 4)
  { s with
    mem := Memory.writeWords s.mem s.pc.toNat
      ((wordsOfNumber (w % 2 ^ nbits)).take (size.val - s.pc.toNat))
    params := { s.params with memSize := size }
    runState := .running
    faultKind := none
    faultPc := 0#16
    latch := none }

end Sys2Proof.Machine
end

