-- ==== Sys2Proof/Machine/HostPorts.lean ====
section
/-! DEFINITION. What the host may do to the CORE through its ports: load an image and RESET, and
deliver an input character (10_state.md R25, R26; 70_reset_and_hazards.md R118 to R120); and what
happens when these coincide with a step (60_exceptions.md R114). -/

namespace Sys2Proof.Machine

/-- The contents of cells 0 to MEM_SIZE-1 after the load: the image, then PAD (10_state.md R24). -/
def loadedCells (load : ImageLoad) : List Cell :=
  load.image ++ (List.range (load.memSize - load.image.length)).map
    fun k => load.pad (load.image.length + k)

/-- The input port when RESET comes: a character on offer to a waiting `in` coincides with RESET and
is discarded (60_exceptions.md R114); a character no `in` has asked for stays with its source (log 11). -/
def State.discardOffer (s : State) : State :=
  if s.runState = .running ∧ s.waitIn = true then s.polled else s

/-- RESET on the state `s` (70_reset_and_hazards.md R118): every piece of state takes its reset value
of 10_state.md R32, a step or a wait in progress is abandoned and the character it would take is
discarded (60_exceptions.md R114). The record of the run's port transactions starts anew (log 8);
STACK_CAPACITY is no part of the load and stays (log 9). A load that breaks R120 is refused. -/
def State.resetPort (s : State) (load : ImageLoad) : Option State :=
  if h : load.image.length ≤ load.memSize ∧ load.memSize ≤ 32768 then
    some {
      regs := RegFile.zero
      pc := 0#16
      stack := []
      mem := Memory.ofCells 0 (loadedCells load)
      runState := .running
      faultKind := none
      faultPc := 0#16
      latch := none
      params := { s.params with memSize := ⟨load.memSize, Nat.lt_succ_of_le h.2⟩ }
      events := []
      input := s.discardOffer.input
      polls := s.discardOffer.polls }
  else none

/-- The state a run starts from: RESET with an image and the default MEM_SIZE = len(IMAGE), on a CORE
with the default unbounded stack (00_scope.md R6). -/
def loadImage (image : List Cell) : Option State :=
  State.reset.resetPort { image := image, memSize := image.length, pad := fun _ => 0#16 }

/-- The host puts one more character at the input port (10_state.md R26). -/
def State.deliver (s : State) (c : Word) : State := { s with input := s.input ++ [c] }

/-- One instant of the CORE and its host (60_exceptions.md R114; log 11): at most one RESET request and
at most one arriving character, beside the step that is due. RESET wins: the character and the step
are discarded. Without RESET the step is taken with the character at the port. `none` is a RESET whose
load is refused (70_reset_and_hazards.md R120). -/
def State.instant (s : State) (reset : Option ImageLoad) (arriving : Option Word) : Option Result :=
  match reset, arriving with
  | some load, _ => (s.resetPort load).map .next
  | none, some c => some (step (s.deliver c))
  | none, none => some (step s)

end Sys2Proof.Machine
end

