-- ==== Sys2Proof/Safety.lean ====
section
/-! DEFINITION. The terms claims are made in: what a state keeps from another, what it is to have
taken a fault, the invariant of the CORE, and a run that never faults. -/

namespace Sys2Proof.Machine

/-- Every register reads as before. -/
def SameRegs (s t : State) : Prop := ∀ r, t.readReg r = s.readReg r

/-- Every register but the ones a D slot of `i` names reads as before. -/
def SameRegsButDest (i : Instr) (s t : State) : Prop :=
  ∀ r, (Operand.reg r, SlotKind.dest) ∉ i.slots → t.readReg r = s.readReg r

/-- Every memory cell reads as before. -/
def SameMemory (s t : State) : Prop := ∀ a, t.memRead a = s.memRead a

/-- The STATUS register's fields, FAULT_PC and the latch are as before. -/
def SameStatus (s t : State) : Prop :=
  t.runState = s.runState ∧ t.faultKind = s.faultKind ∧ t.faultPc = s.faultPc ∧ t.latch = s.latch

/-- The ports are as before: no transaction, and nothing taken from the input. -/
def SamePorts (s t : State) : Prop :=
  t.events = s.events ∧ t.input = s.input ∧ t.polls = s.polls

/-- `t` is `s` after fault entry with kind `k`: RUN_STATE, FAULT_KIND, FAULT_PC and WAIT_IN are
written and nothing else (60_exceptions.md R108). -/
def FaultTaken (k : FaultKind) (s t : State) : Prop :=
  t = { s with runState := .faulted, faultKind := some k, faultPc := s.pc, latch := none }

/-- The status registers are as before or those of a fault taken at `s.pc`. -/
def SameStatusOrFault (s t : State) : Prop := SameStatus s t ∨ ∃ k, FaultTaken k s t

/-- The invariant of the CORE. -/
structure State.Inv (s : State) : Prop where
  /-- The memory is in its canonical form. -/
  mem_wf : Memory.wf s.mem
  /-- No listed cell lies outside memory (10_state.md R23). -/
  mem_bound : ∀ p ∈ s.mem, p.1 < s.memSize
  /-- The pc lies in [0, 32768] (10_state.md R18). -/
  pc_le : s.pc.toNat ≤ 32768
  /-- Stack entries are at most 32768 (10_state.md R21). -/
  stack_le : ∀ e ∈ s.stack, e.toNat ≤ 32768
  /-- The stack is within a finite STACK_CAPACITY (10_state.md R22). -/
  stack_capacity : ∀ n, s.params.stackCapacity = some n → s.stack.length ≤ n
  /-- FAULT_KIND is non-zero exactly when RUN_STATE is Faulted (10_state.md R28). -/
  fault_kind : s.faultKind ≠ none ↔ s.runState = .faulted
  /-- FAULT_PC holds 0 while RUN_STATE is not Faulted (10_state.md R29). -/
  fault_pc : s.runState ≠ .faulted → s.faultPc = 0#16
  /-- WAIT_IN is 0 whenever RUN_STATE is not Running (10_state.md R28). -/
  wait_running : s.latch ≠ none → s.runState = .running
  /-- What is latched is a legal `in` at pc, and memory still holds its words
  (10_state.md R30; 40_execution_engine.md R70). -/
  latch_in : ∀ l, s.latch = some l → l.ia = s.pc ∧
    (∃ r, l.instr = .in_ (.reg r)) ∧ s.cellsFrom s.pc.toNat 2 = l.instr.encode

/-- A run from `s` that never takes a fault, however long (60_exceptions.md R112). -/
def State.NeverFaults (s : State) : Prop :=
  ∀ n t, Sys2Proof.core.run n s = .next t → t.runState ≠ .faulted

/-- The Words a run has emitted on the OUT port, in order (60_exceptions.md R112). -/
def State.output (s : State) : List Word :=
  s.events.filterMap fun e => match e with
    | .out v => some v
    | .in_ _ => none

end Sys2Proof.Machine
end

