-- ==== Sys2Proof/Certificates/Slice0/Obligations.lean ====
section
/-! DEFINITION. The statements for the provers. Each docstring names the rule of spec/ the statement
formalises, or the spec's decision or the log entry it rests on. -/

open Sys2Proof Sys2Proof.Machine

/-! ## Encoding (30_encoding.md) -/

/-- R48, R51, R55: no bit of a legal instruction is dropped by its encoding. -/
def Obligations.DecodeOfEncodeIsIdentity : Prop :=
  ∀ (i : Instr) (rest : List Cell), i.wellFormed = true → decode (i.encode ++ rest) = .ok (i, rest)

/-- R48, R50, R51: every word sequence that decodes is the encoding of what it decodes to, so no two
sequences of words mean the same instruction. -/
def Obligations.EncodeOfDecodeIsIdentity : Prop :=
  ∀ (ws rest : List Cell) (i : Instr), decode ws = .ok (i, rest) → i.encode ++ rest = ws

/-- R58, with the opcode numbers of R55, which the spec marks as its own reading (D1): the opcode word
alone fixes the length; an opcode word of 22 or more has none, whatever follows. -/
def Obligations.OpcodeWordAloneFixesLength : Prop :=
  ∀ (op : Cell) (ws : List Cell),
    (∀ n, arityOf op.toNat = some n → n ≤ ws.length →
      ∃ i, i.opcode = op.toNat ∧ i.arity = n ∧ decode (op :: ws) = .ok (i, ws.drop n)) ∧
    (∀ n, arityOf op.toNat = some n → ws.length < n → decode (op :: ws) = .error .truncated) ∧
    (22 ≤ op.toNat → arityOf op.toNat = none ∧ decode (op :: ws) = .error .invalidOpcode)

/-- R60 (which the spec derives from R51 and R55): the five encodings it prints. -/
def Obligations.PrintedEncodingsDecode : Prop :=
  decode [9#16, 32768#16, 32769#16, 4#16] = .ok (.add (.reg .r0) (.reg .r1) (.lit 4#15), []) ∧
  decode [19#16, 32768#16] = .ok (.out (.reg .r0), []) ∧
  decode [0#16] = .ok (.halt, []) ∧
  decode [7#16, 32775#16, 1234#16] = .ok (.jt (.reg .r7) (.lit 1234#15), []) ∧
  decode [16#16, 32769#16, 0#16] = .ok (.wmem (.reg .r1) (.lit 0#15), [])

/-- R51, R52, R53: the three classes of an operand word, the value a V slot has and the register a D
slot names. -/
def Obligations.OperandWordsHaveThreeClasses : Prop :=
  ∀ (s : State) (v : Cell),
    (v.toNat < 32768 →
      (∃ w : Word, w.toNat = v.toNat ∧ Operand.ofCell v = .lit w ∧
        s.resolve (Operand.ofCell v) = some w) ∧ regidx (Operand.ofCell v) = none) ∧
    (32768 ≤ v.toNat → v.toNat < 32776 →
      ∃ r : Reg, r.index = v.toNat - 32768 ∧ Operand.ofCell v = .reg r ∧
        s.resolve (Operand.ofCell v) = some (s.readReg r) ∧ regidx (Operand.ofCell v) = some r) ∧
    (32776 ≤ v.toNat → Operand.ofCell v = .invalid v ∧
      s.resolve (Operand.ofCell v) = none ∧ regidx (Operand.ofCell v) = none)

/-- R37: image words are little-endian. (Only for a whole number of words: of an odd byte the spec
says nothing, N11.) -/
def Obligations.ImageWordsAreLittleEndian : Prop :=
  ∀ (bytes : List (BitVec 8)) (image : List Cell), imageOfBytes bytes = some image →
    bytes.length = 2 * image.length ∧
    ∀ k, k < image.length →
      (image.getD k 0#16).toNat =
        (bytes.getD (2 * k) 0#8).toNat + 256 * (bytes.getD (2 * k + 1) 0#8).toNat

/-! ## State, reset and the invariant (10_state.md, 70_reset_and_hazards.md) -/

/-- R8: a register write stores the value mod 32768, which is its bits 14:0, whatever its width; no
other register changes. -/
def Obligations.RegisterWriteReducesModulo : Prop :=
  ∀ (s : State) (r q : Reg) (w : Nat) (v : BitVec w),
    ((s.writeReg r v).readReg r).toNat = v.toNat % 32768 ∧
    (s.writeReg r v).readReg r = v.extractLsb' 0 15 ∧
    (q ≠ r → (s.writeReg r v).readReg q = s.readReg q)

/-- The memory's form is the model's own choice (log 1): two canonical memories that read alike in
every cell are the same list. -/
def Obligations.EqualMemoriesAreEqualData : Prop :=
  ∀ m m' : Memory, Memory.wf m → Memory.wf m' →
    (∀ a, Memory.read m a = Memory.read m' a) → m = m'

/-- R32 with R16, R18, R20 and, as the spec's decisions D12 and D23, R28, R29, R31: the registers, pc,
stack, STATUS, FAULT_PC and latch of the state after RESET. Memory is `ResetPortLoadsImageAndPad`. -/
def Obligations.ResetStateHoldsResetValues : Prop :=
  (∀ r, State.reset.readReg r = 0#15) ∧ State.reset.pc = 0#16 ∧ State.reset.stack = [] ∧
  State.reset.readHostRegister 0 = some 0#16 ∧ State.reset.readHostRegister 1 = some 0#16 ∧
  State.reset.latch = none

/-- R118, R120, R24, R32 (decisions D3, D4, D23): RESET is refused exactly outside R120's bounds, and
otherwise puts every piece of state at its reset value, the image and PAD in memory. Two clauses are
no rule of the spec but the model's own choice: that the record of port transactions is empty after
RESET (log 8: R32 knows no such state), and that RESET keeps STACK_CAPACITY (log 9). -/
def Obligations.ResetPortLoadsImageAndPad : Prop :=
  ∀ (s : State) (load : ImageLoad),
    ((s.resetPort load).isSome = true ↔
      load.image.length ≤ load.memSize ∧ load.memSize ≤ 32768) ∧
    ∀ t, s.resetPort load = some t →
      (∀ a, a < load.image.length → t.memRead a = load.image.getD a 0#16) ∧
      (∀ a, load.image.length ≤ a → a < load.memSize → t.memRead a = load.pad a) ∧
      t.memSize = load.memSize ∧ t.params.stackCapacity = s.params.stackCapacity ∧
      (∀ r, t.readReg r = 0#15) ∧ t.stack = [] ∧ t.pc = 0#16 ∧
      t.status = 0#16 ∧ t.runState = .running ∧ t.faultPc = 0#16 ∧ t.latch = none ∧ t.events = []

/-- R114 (decision D23), as the model puts the coinciding events together (log 11) and holds the input
port (log 3): RESET wins over the step, the arriving character and the waiting `in` it coincides with.
An arriving character makes no difference; whether the step that was due is taken first or not, RESET
gives the same CORE; a character on offer to a waiting `in` is used up as if the `in` had taken it, and
a character that no `in` waits for stays. -/
def Obligations.ResetWinsOverWhatItCoincidesWith : Prop :=
  ∀ (s : State) (load : ImageLoad),
    (∀ arriving, s.instant (some load) arriving = (s.resetPort load).map Host.Outcome.next) ∧
    (∀ u, step s = .next u → ∀ (q : List Word) (n : Nat),
      (u.resetPort load).map (fun t => { t with input := q, polls := n }) =
        (s.resetPort load).map (fun t => { t with input := q, polls := n })) ∧
    (∀ u c, s.Inv → s.latch ≠ none → s.offered = some c → step s = .next u →
      u.resetPort load = s.resetPort load) ∧
    (∀ t c rest, s.resetPort load = some t → s.runState = .running → s.latch ≠ none →
      s.input = c :: rest → t.input = rest) ∧
    (∀ t, s.resetPort load = some t → s.latch = none → t.input = s.input)

/-- The invariant holds right after reset. -/
def Obligations.ResetSatisfiesInvariant : Prop := State.reset.Inv

/-- Every accepted load gives a state that meets the invariant, whatever came before. -/
def Obligations.EveryLoadSatisfiesInvariant : Prop :=
  ∀ (s t : State) (load : ImageLoad), s.resetPort load = some t → t.Inv

/-- Every step keeps the invariant: the memory canonical and inside MEM_SIZE (R23), the pc and the
stack entries at most 32768 (R18, R21), the stack within its capacity (R22), the STATUS fields and
FAULT_PC consistent (R28, R29), and a waiting `in` latched as memory holds it (R30, R70). -/
def Obligations.EveryStepKeepsInvariant : Prop :=
  ∀ s t : State, s.Inv → step s = .next t → t.Inv

/-- Any number of steps keeps the invariant. -/
def Obligations.EveryRunKeepsInvariant : Prop :=
  ∀ (n : Nat) (s t : State), s.Inv → Sys2Proof.core.run n s = .next t → t.Inv

/-- R28, R29 (layout: decision D12): where the fields of STATUS stand, that its upper bits read 0, that
the reserved codes never show, and when FAULT_KIND, WAIT_IN and FAULT_PC may be other than 0. -/
def Obligations.StatusWordShowsRunState : Prop :=
  ∀ s : State, s.Inv →
    s.readHostRegister 0 = some s.status ∧ s.readHostRegister 1 = some s.faultPc ∧
    s.status.toNat % 4 = s.runState.code ∧
    s.status.toNat / 4 % 2 = (if s.waitIn then 1 else 0) ∧
    s.status.toNat / 8 % 8 = s.faultKindCode ∧
    s.status.toNat < 64 ∧ s.status.toNat % 4 ≠ 3 ∧ s.status.toNat / 8 % 8 ≠ 7 ∧
    (s.status.toNat / 8 % 8 ≠ 0 ↔ s.status.toNat % 4 = 2) ∧
    (s.status.toNat % 4 ≠ 0 → s.status.toNat / 4 % 2 = 0) ∧
    (s.status.toNat % 4 ≠ 2 → s.faultPc = 0#16)

/-! ## The step (40_execution_engine.md, 60_exceptions.md) -/

/-- R62, R66, R69, R70: where memory at pc holds the words of a legal instruction, a Running CORE with
nothing latched executes exactly it; a waiting one goes on with the latched `in`. -/
def Obligations.StepRunsDecodedInstruction : Prop :=
  (∀ (s : State) (i : Instr), s.runState = .running → s.latch = none → i.wellFormed = true →
    s.pc.toNat + i.encode.length ≤ s.memSize →
    (∀ k, k < i.encode.length → s.memRead (s.pc.toNat + k) = i.encode.getD k 0#16) →
    step s = exec i s) ∧
  (∀ (s : State) (l : Latch), s.runState = .running → s.latch = some l → step s = exec l.instr s)

/-- R62, R109 (decisions D6, D9): the checks of fetch and decode in their order, each with the fault it
raises, and the instruction executed when all pass. -/
def Obligations.FetchAndDecodeCheckInOrder : Prop :=
  ∀ s : State, s.runState = .running → s.latch = none →
    (s.memSize ≤ s.pc.toNat →
      ∃ t, step s = .next t ∧ FaultTaken .memoryOutOfBounds s t) ∧
    (s.pc.toNat < s.memSize → 22 ≤ (s.memRead s.pc.toNat).toNat →
      ∃ t, step s = .next t ∧ FaultTaken .invalidOpcode s t) ∧
    (∀ n, s.pc.toNat < s.memSize → arityOf (s.memRead s.pc.toNat).toNat = some n →
      s.memSize ≤ s.pc.toNat + n →
      ∃ t, step s = .next t ∧ FaultTaken .memoryOutOfBounds s t) ∧
    (∀ n, arityOf (s.memRead s.pc.toNat).toNat = some n → s.pc.toNat + n < s.memSize →
      ∃ i, s.fetch = .ok i ∧ i.opcode = (s.memRead s.pc.toNat).toNat ∧ i.arity = n ∧
        (∀ k, k < n → (i.encode.getD (k + 1) 0#16) = s.memRead (s.pc.toNat + 1 + k)) ∧
        (i.wellFormed = true → step s = exec i s) ∧
        (i.wellFormed = false → ∃ t, step s = .next t ∧ FaultTaken .invalidOperand s t))

/-- R54, R57, R102 (decisions D7, D8): an instruction with an illegal slot, used or not, raises
InvalidOperand and does nothing else. -/
def Obligations.IllegalOperandRaisesInvalidOperand : Prop :=
  ∀ (i : Instr) (s : State), i.wellFormed = false →
    ∃ t, exec i s = .next t ∧ FaultTaken .invalidOperand s t

/-- R71: a Halted or Faulted CORE takes no step. -/
def Obligations.StoppedCoreTakesNoStep : Prop :=
  ∀ s : State, (s.runState = .halted → step s = .fault .halted) ∧
    (s.runState = .faulted → step s = .fault .faulted)

/-- R61, R69, R70: the CORE takes a step exactly while Running, whatever memory holds at pc. (While an
`in` waits, a look at the port that finds nothing is a step of the model, log 3.) -/
def Obligations.CoreStepsExactlyWhileRunning : Prop :=
  ∀ s : State, (∃ t, step s = .next t) ↔ s.runState = .running

/-- R108 (decision D10): a fault is precise. Whatever instruction raises it, only RUN_STATE,
FAULT_KIND, FAULT_PC and WAIT_IN are written. -/
def Obligations.FaultsArePrecise : Prop :=
  ∀ s t : State, step s = .next t → t.runState = .faulted → ∃ k, FaultTaken k s t

/-- R111 (decision D11): a clean halt writes RUN_STATE and nothing else, and only `halt`, or `ret` with
an empty stack, halts. -/
def Obligations.CleanHaltsChangeOnlyRunState : Prop :=
  ∀ s t : State, s.Inv → step s = .next t → t.runState = .halted →
    t = { s with runState := .halted } ∧
    (s.fetch = .ok .halt ∨ (s.fetch = .ok .ret ∧ s.stack = []))

/-- R101 to R107 (code numbers and StackOverflow: decisions D9, D12, D13): each fault kind comes from
its cause alone. -/
def Obligations.EachFaultKindHasItsCause : Prop :=
  ∀ s t : State, s.Inv → step s = .next t → t.runState = .faulted →
    (t.faultKind = some .invalidOperand → ∃ i, s.fetch = .ok i ∧ i.wellFormed = false) ∧
    (t.faultKind = some .stackUnderflow → s.stack = [] ∧ ∃ a, s.fetch = .ok (.pop a)) ∧
    (t.faultKind = some .divideByZero →
      ∃ a b c, s.fetch = .ok (.mod a b c) ∧ s.resolve c = some 0#15) ∧
    (t.faultKind = some .invalidOpcode →
      s.pc.toNat < s.memSize ∧ 22 ≤ (s.memRead s.pc.toNat).toNat) ∧
    (t.faultKind = some .memoryOutOfBounds →
      s.memSize ≤ s.pc.toNat ∨
      (∃ n, arityOf (s.memRead s.pc.toNat).toNat = some n ∧ s.memSize ≤ s.pc.toNat + n) ∨
      (∃ a b v, s.fetch = .ok (.rmem a b) ∧ s.resolve b = some v ∧ s.memSize ≤ v.toNat) ∨
      (∃ a b v, s.fetch = .ok (.wmem a b) ∧ s.resolve a = some v ∧ s.memSize ≤ v.toNat)) ∧
    (t.faultKind = some .stackOverflow →
      s.params.stackCapacity = some s.stack.length ∧
      ∃ a, s.fetch = .ok (.push a) ∨ s.fetch = .ok (.call a))

/-- R63: the default next of a fetched instruction is at most MEM_SIZE, and computing it does not wrap
(R17, decision D5). -/
def Obligations.DefaultNextNeverPassesMemory : Prop :=
  ∀ (s : State) (i : Instr), s.fetch = .ok i →
    s.pc.toNat + 1 + i.arity ≤ s.memSize ∧
    (s.advance i.arity).pc.toNat = s.pc.toNat + 1 + i.arity

/-! ## Data movement (41_data_movement.md) -/

/-- R77: `set a,b`. (Here and below the encoding is the rule's own; its opcode number is R55's.) -/
def Obligations.SetCopiesValue : Prop :=
  ∀ (r : Reg) (b : Operand) (s : State) (v : Word), s.resolve b = some v →
    (Instr.set (.reg r) b).encode = [1#16, (Operand.reg r).toCell, b.toCell] ∧
    exec (.set (.reg r) b) s = .next { s with regs := s.regs.set r v, pc := s.pc + 3#16 }

/-- R78, R22, R107 (decision D13): `push a`, on a stack with room and on a full one. -/
def Obligations.PushPutsValueOnTop : Prop :=
  ∀ (a : Operand) (s : State) (v : Word), s.resolve a = some v →
    (Instr.push a).encode = [2#16, a.toCell] ∧
    (s.params.stackCapacity ≠ some s.stack.length →
      ∃ e : Cell, e.toNat = v.toNat ∧
        exec (.push a) s = .next { s with stack := e :: s.stack, pc := s.pc + 2#16 }) ∧
    (s.params.stackCapacity = some s.stack.length →
      ∃ t, exec (.push a) s = .next t ∧ FaultTaken .stackOverflow s t)

/-- R79, R103: `pop a`, on a stack with entries and on an empty one. What fault entry leaves alone is
R108's (decision D10). -/
def Obligations.PopTakesTopOfStack : Prop :=
  ∀ (r : Reg) (s : State),
    (Instr.pop (.reg r)).encode = [3#16, (Operand.reg r).toCell] ∧
    (∀ (e : Cell) (rest : List Cell), s.stack = e :: rest →
      ∃ v : Word, v.toNat = e.toNat % 32768 ∧
        exec (.pop (.reg r)) s =
          .next { s with regs := s.regs.set r v, stack := rest, pc := s.pc + 2#16 }) ∧
    (s.stack = [] → ∃ t, exec (.pop (.reg r)) s = .next t ∧ FaultTaken .stackUnderflow s t)

/-- R80, R40 (reduction: decision D26): `rmem a,b`, at an address inside memory and at one outside. -/
def Obligations.RmemReadsCell : Prop :=
  ∀ (r : Reg) (b : Operand) (s : State) (addr : Word), s.resolve b = some addr →
    (Instr.rmem (.reg r) b).encode = [15#16, (Operand.reg r).toCell, b.toCell] ∧
    (addr.toNat < s.memSize →
      ∃ v : Word, v.toNat = (s.memRead addr.toNat).toNat % 32768 ∧
        exec (.rmem (.reg r) b) s =
          .next { s with regs := s.regs.set r v, pc := s.pc + 3#16 }) ∧
    (s.memSize ≤ addr.toNat →
      ∃ t, exec (.rmem (.reg r) b) s = .next t ∧ FaultTaken .memoryOutOfBounds s t)

/-- R81, R40: `wmem a,b`, at an address inside memory and at one outside (fault entry: decision D10).
After a completed write the cell at the resolved address holds the value, and every other cell is as
before. The premise on the memory is the invariant's (log 1). -/
def Obligations.WmemWritesOneCell : Prop :=
  ∀ (a b : Operand) (s : State) (addr v : Word), Memory.wf s.mem →
    s.resolve a = some addr → s.resolve b = some v →
    (Instr.wmem a b).encode = [16#16, a.toCell, b.toCell] ∧
    (addr.toNat < s.memSize →
      ∃ t, exec (.wmem a b) s = .next t ∧ t = { s with mem := t.mem, pc := s.pc + 3#16 } ∧
        (t.memRead addr.toNat).toNat = v.toNat ∧
        ∀ c, c ≠ addr.toNat → t.memRead c = s.memRead c) ∧
    (s.memSize ≤ addr.toNat →
      ∃ t, exec (.wmem a b) s = .next t ∧ FaultTaken .memoryOutOfBounds s t)

/-! ## Comparison, arithmetic and logic (42_arithmetic_logic.md, 40_execution_engine.md) -/

/-- R82, R83: `eq a,b,c` and `gt a,b,c` write exactly 0 or 1; the comparison is unsigned. -/
def Obligations.ComparisonsWriteZeroOrOne : Prop :=
  ∀ (r : Reg) (b c : Operand) (s : State) (vb vc : Word),
    s.resolve b = some vb → s.resolve c = some vc →
    (Instr.eq (.reg r) b c).encode = [4#16, (Operand.reg r).toCell, b.toCell, c.toCell] ∧
    (Instr.gt (.reg r) b c).encode = [5#16, (Operand.reg r).toCell, b.toCell, c.toCell] ∧
    exec (.eq (.reg r) b c) s =
      .next { s with
        regs := s.regs.set r (if vb.toNat = vc.toNat then 1#15 else 0#15), pc := s.pc + 4#16 } ∧
    exec (.gt (.reg r) b c) s =
      .next { s with
        regs := s.regs.set r (if vb.toNat > vc.toNat then 1#15 else 0#15), pc := s.pc + 4#16 }

/-- R84: `add a,b,c`. -/
def Obligations.AddWritesSumModulo : Prop :=
  ∀ (r : Reg) (b c : Operand) (s : State) (vb vc : Word),
    s.resolve b = some vb → s.resolve c = some vc →
    (Instr.add (.reg r) b c).encode = [9#16, (Operand.reg r).toCell, b.toCell, c.toCell] ∧
    ∃ v : Word, v.toNat = (vb.toNat + vc.toNat) % 32768 ∧
      exec (.add (.reg r) b c) s =
        .next { s with regs := s.regs.set r v, pc := s.pc + 4#16 }

/-- R85: `mult a,b,c`. -/
def Obligations.MultWritesProductModulo : Prop :=
  ∀ (r : Reg) (b c : Operand) (s : State) (vb vc : Word),
    s.resolve b = some vb → s.resolve c = some vc →
    (Instr.mult (.reg r) b c).encode = [10#16, (Operand.reg r).toCell, b.toCell, c.toCell] ∧
    ∃ v : Word, v.toNat = (vb.toNat * vc.toNat) % 32768 ∧
      exec (.mult (.reg r) b c) s =
        .next { s with regs := s.regs.set r v, pc := s.pc + 4#16 }

/-- R86, R104: `mod a,b,c`, with a divisor other than 0 and with 0 (fault entry: decision D10). -/
def Obligations.ModWritesRemainderOrFaults : Prop :=
  ∀ (r : Reg) (b c : Operand) (s : State) (vb vc : Word),
    s.resolve b = some vb → s.resolve c = some vc →
    (Instr.mod (.reg r) b c).encode = [11#16, (Operand.reg r).toCell, b.toCell, c.toCell] ∧
    (vc.toNat ≠ 0 →
      ∃ v : Word, v.toNat = vb.toNat % vc.toNat ∧ v.toNat < vc.toNat ∧
        exec (.mod (.reg r) b c) s =
          .next { s with regs := s.regs.set r v, pc := s.pc + 4#16 }) ∧
    (vc.toNat = 0 →
      ∃ t, exec (.mod (.reg r) b c) s = .next t ∧ FaultTaken .divideByZero s t)

/-- R87, R88, R89: `and a,b,c`, `or a,b,c` and the 15-bit `not a,b`. -/
def Obligations.BitwiseInstructionsWriteResult : Prop :=
  ∀ (r : Reg) (b c : Operand) (s : State) (vb vc : Word),
    s.resolve b = some vb → s.resolve c = some vc →
    (Instr.and (.reg r) b c).encode = [12#16, (Operand.reg r).toCell, b.toCell, c.toCell] ∧
    (Instr.or (.reg r) b c).encode = [13#16, (Operand.reg r).toCell, b.toCell, c.toCell] ∧
    (Instr.not (.reg r) b).encode = [14#16, (Operand.reg r).toCell, b.toCell] ∧
    (∃ v : Word, v.toNat = vb.toNat &&& vc.toNat ∧
      exec (.and (.reg r) b c) s = .next { s with regs := s.regs.set r v, pc := s.pc + 4#16 }) ∧
    (∃ v : Word, v.toNat = vb.toNat ||| vc.toNat ∧
      exec (.or (.reg r) b c) s = .next { s with regs := s.regs.set r v, pc := s.pc + 4#16 }) ∧
    (∃ v : Word, v.toNat = 32767 - vb.toNat ∧
      exec (.not (.reg r) b) s = .next { s with regs := s.regs.set r v, pc := s.pc + 3#16 })

/-- R74: the functions of the modulo arithmetic unit, as numbers. -/
def Obligations.ArithmeticUnitComputesModulo : Prop :=
  ∀ b c : Word,
    (add15 b c).toNat = (b.toNat + c.toNat) % 32768 ∧
    (mul15 b c).toNat = (b.toNat * c.toNat) % 32768 ∧
    (c.toNat ≠ 0 → (rem15 b c).toNat = b.toNat % c.toNat) ∧
    (and15 b c).toNat = b.toNat &&& c.toNat ∧
    (or15 b c).toNat = b.toNat ||| c.toNat ∧
    (not15 b).toNat = b.toNat ^^^ 0x7FFF ∧ (not15 b).toNat = 32767 - b.toNat ∧
    (eq15 b c).toNat = (if b.toNat = c.toNat then 1 else 0) ∧
    (gt15 b c).toNat = (if b.toNat > c.toNat then 1 else 0)

/-- R75, R76 (which the spec derives from R74): the laws the unit satisfies, and subtraction by
addition. -/
def Obligations.ArithmeticUnitLaws : Prop :=
  ∀ x y z : Word,
    not15 (not15 x) = x ∧
    (eq15 x y = 0#15 ∨ eq15 x y = 1#15) ∧ (gt15 x y = 0#15 ∨ gt15 x y = 1#15) ∧
    add15 x y = add15 y x ∧ mul15 x y = mul15 y x ∧
    add15 (add15 x y) z = add15 x (add15 y z) ∧ mul15 (mul15 x y) z = mul15 x (mul15 y z) ∧
    add15 x 0#15 = x ∧ mul15 x 1#15 = x ∧ mul15 x 0#15 = 0#15 ∧
    add15 x (not15 x) = 32767#15 ∧
    (y.toNat ≠ 0 → (rem15 x y).toNat < y.toNat) ∧ rem15 x 1#15 = 0#15 ∧
    (x.toNat < y.toNat → rem15 x y = x) ∧
    (gt15 x y = 1#15 → gt15 y x = 0#15) ∧
    (y.toNat ≤ x.toNat →
      (add15 x (BitVec.ofNat 15 ((32768 - y.toNat) % 32768))).toNat = x.toNat - y.toNat)

/-! ## Control transfer (43_control_transfer.md) -/

/-- R90: `jmp a`; the target is checked at the next fetch (R64, decision D5). -/
def Obligations.JmpGoesToTarget : Prop :=
  ∀ (a : Operand) (s : State) (v : Word), s.resolve a = some v →
    (Instr.jmp a).encode = [6#16, a.toCell] ∧
    ∃ t : Cell, t.toNat = v.toNat ∧ exec (.jmp a) s = .next { s with pc := t } ∧
      (s.runState = .running → s.latch = none → s.memSize ≤ v.toNat →
        ∃ u, step { s with pc := t } = .next u ∧
          FaultTaken .memoryOutOfBounds { s with pc := t } u)

/-- R91, R92: `jt a,b` and `jf a,b`. For every test value exactly one of the two jumps. -/
def Obligations.ConditionalJumpsAreComplementary : Prop :=
  ∀ (a b : Operand) (s : State) (va vb : Word), s.resolve a = some va → s.resolve b = some vb →
    (Instr.jt a b).encode = [7#16, a.toCell, b.toCell] ∧
    (Instr.jf a b).encode = [8#16, a.toCell, b.toCell] ∧
    ∃ t : Cell, t.toNat = vb.toNat ∧
      (va.toNat ≠ 0 → exec (.jt a b) s = .next { s with pc := t } ∧
        exec (.jf a b) s = .next { s with pc := s.pc + 3#16 }) ∧
      (va.toNat = 0 → exec (.jt a b) s = .next { s with pc := s.pc + 3#16 } ∧
        exec (.jf a b) s = .next { s with pc := t })

/-- R93, R65, R107 (decisions D13, D14): `call a`, on a stack with room and on a full one. -/
def Obligations.CallPushesReturnAddress : Prop :=
  ∀ (a : Operand) (s : State) (v : Word), s.resolve a = some v →
    (Instr.call a).encode = [17#16, a.toCell] ∧
    (s.params.stackCapacity ≠ some s.stack.length →
      ∃ t : Cell, t.toNat = v.toNat ∧
        exec (.call a) s = .next { s with stack := (s.pc + 2#16) :: s.stack, pc := t }) ∧
    (s.params.stackCapacity = some s.stack.length →
      ∃ t, exec (.call a) s = .next t ∧ FaultTaken .stackOverflow s t)

/-- R94: `ret`, on an empty stack (that pc stays: decision D11) and on one with entries; a popped target is checked at the next
fetch; and a `ret` that finds the stack as a `call` left it returns behind the `call`. -/
def Obligations.RetReturnsOrHalts : Prop :=
  ∀ s : State,
    Instr.ret.encode = [18#16] ∧
    (s.stack = [] → exec .ret s = .next { s with runState := .halted }) ∧
    (∀ (t : Cell) (rest : List Cell), s.stack = t :: rest →
      exec .ret s = .next { s with stack := rest, pc := t } ∧
      (s.runState = .running → s.latch = none → s.memSize ≤ t.toNat →
        ∃ u, step { s with stack := rest, pc := t } = .next u ∧
          FaultTaken .memoryOutOfBounds { s with stack := rest, pc := t } u)) ∧
    (∀ (a : Operand) (v : Word) (t u : State), s.resolve a = some v →
      exec (.call a) s = .next t → t.runState ≠ .faulted → u.stack = t.stack →
      exec .ret u = .next { u with stack := s.stack, pc := s.pc + 2#16 })

/-! ## System and ports (44_system_io.md) -/

/-- R96, R71: `halt` ends the run; pc stays (decision D11); Halted is terminal. -/
def Obligations.HaltEndsRun : Prop :=
  ∀ s : State, Instr.halt.encode = [0#16] ∧
    exec .halt s = .next { s with runState := .halted } ∧
    step { s with runState := .halted } = .fault .halted

/-- R97 (decisions D15, D19): `out a` emits the Word unchanged. -/
def Obligations.OutEmitsWord : Prop :=
  ∀ (a : Operand) (s : State) (v : Word), s.resolve a = some v →
    (Instr.out a).encode = [19#16, a.toCell] ∧
    exec (.out a) s = .next { s with events := s.events ++ [.out v], pc := s.pc + 2#16 }

/-- R98, R70, R30 (decisions D16 to D18, D25; the codes 13 and 10 are general knowledge, G2; that the
offer is a delivered character or else a free value is the model's, log 3): `in a` begins its wait,
and completes when a character is offered; while none is, nothing of the machine changes. -/
def Obligations.InWaitsThenStoresCharacter : Prop :=
  ∀ (r : Reg) (s : State),
    (Instr.in_ (.reg r)).encode = [20#16, (Operand.reg r).toCell] ∧
    (s.latch = none →
      exec (.in_ (.reg r)) s = .next { s with latch := some ⟨s.pc, .in_ (.reg r)⟩ }) ∧
    (∀ (l : Latch) (c : Word) (rest : List Word), s.latch = some l → s.input = c :: rest →
      exec (.in_ (.reg r)) s = .next { s with
        regs := s.regs.set r (if c.toNat = 13 then 10#15 else c), pc := l.ia + 2#16, latch := none,
        events := s.events ++ [.in_ c], input := rest }) ∧
    (∀ l : Latch, s.latch = some l → s.input = [] →
      exec (.in_ (.reg r)) s = .next (match Config.freeOffer s.polls with
        | some c => { s with
            regs := s.regs.set r (if c.toNat = 13 then 10#15 else c), pc := l.ia + 2#16,
            latch := none, events := s.events ++ [.in_ c], polls := s.polls + 1 }
        | none => { s with polls := s.polls + 1 }))

/-- R99: `noop` changes the pc alone. -/
def Obligations.NoopOnlyAdvances : Prop :=
  ∀ s : State, Instr.noop.encode = [21#16] ∧
    exec .noop s = .next { s with pc := s.pc + 1#16 }

/-- R72, R113: outside a wait, what stands at the input port, and how often the CORE has looked at it,
cannot be learned from anything the machine does: two states that differ only there take the same
step. -/
def Obligations.OutsideWaitInputPortIsInvisible : Prop :=
  ∀ (s : State) (q : List Word) (n : Nat), s.latch = none →
    step { s with input := q, polls := n } =
      match step s with
      | .next t => .next { t with input := q, polls := n }
      | .fault f => .fault f
      | .refused f => .refused f

/-- R72 (which the spec derives from R61 and R70): how long an `in` has waited cannot change what a
character does when it comes. -/
def Obligations.WaitingTimeDoesNotMatter : Prop :=
  ∀ (s : State) (c : Word) (n : Nat), s.Inv → s.latch ≠ none → s.input = [] →
    ∃ t, step (s.deliver c) = .next t ∧ t.latch = none ∧
      step ({ s with polls := s.polls + n }.deliver c) = .next { t with polls := t.polls + n }

/-! ## Rules of the whole machine, over every instruction -/

/-- R14: a V slot reads a register by its reference; only a D slot writes one, no instruction has more
than one, and these twelve have one. -/
def Obligations.OnlyDestinationRegisterChanges : Prop :=
  (∀ (s : State) (r : Reg),
    s.resolve (Operand.ofCell (BitVec.ofNat 16 (32768 + r.index))) = some (s.readReg r)) ∧
  (∀ (i : Instr) (s t : State), exec i s = .next t → SameRegsButDest i s t) ∧
  (∀ (i : Instr) (o o' : Operand), (o, SlotKind.dest) ∈ i.slots → (o', SlotKind.dest) ∈ i.slots →
    o = o') ∧
  (∀ i : Instr, (∃ o, (o, SlotKind.dest) ∈ i.slots) ↔
    i.opcode ∈ [1, 3, 4, 5, 9, 10, 11, 12, 13, 14, 15, 20])

/-- R20 (entry width: decision D14): only `push` and `call` push, one entry; only `pop` and `ret` pop,
one entry; every other instruction leaves the stack alone. -/
def Obligations.OnlyFourInstructionsTouchStack : Prop :=
  ∀ (i : Instr) (s t : State), exec i s = .next t → t.stack = s.stack ∨
    ((∃ a, i = .push a ∨ i = .call a) ∧ ∃ e, t.stack = e :: s.stack) ∨
    (((∃ a, i = .pop a) ∨ i = .ret) ∧ ∃ e, s.stack = e :: t.stack)

/-- R23, R41 (cell width and size: decisions D2, D3): `wmem` is the only instruction that changes
memory, and it changes no cell but the one at its resolved address, inside MEM_SIZE. -/
def Obligations.OnlyWmemChangesMemory : Prop :=
  ∀ (i : Instr) (s t : State) (c : Nat), exec i s = .next t → t.memRead c ≠ s.memRead c →
    ∃ a b v, i = .wmem a b ∧ s.resolve a = some v ∧ v.toNat = c ∧ c < s.memSize

/-- R63, R64, R68 (decisions D5, D10, D11): an instruction other than the five control transfers leaves
pc where it is (a fault, a halt, a wait) or takes it to the default next. -/
def Obligations.OnlyFiveInstructionsJump : Prop :=
  ∀ (i : Instr) (s t : State), exec i s = .next t → (∀ l, s.latch = some l → l.ia = s.pc) →
    t.pc = s.pc ∨ t.pc = s.pc + BitVec.ofNat 16 (1 + i.arity) ∨ i.opcode ∈ [6, 7, 8, 17, 18]

/-- R100: the transactions of a run are those of the `out` and `in` instructions it completes, in
order, one each; a faulting one makes none; and a step makes none but through the instruction it
executes. -/
def Obligations.TransactionsAreCompletedOutAndIn : Prop :=
  (∀ s t : State, step s = .next t → t.events ≠ s.events →
    ∃ i, exec i s = .next t ∧ (s.fetch = .ok i ∨ ∃ l, s.latch = some l ∧ l.instr = i)) ∧
  ∀ (i : Instr) (s t : State), s.runState = .running → exec i s = .next t →
    (t.events = s.events ∧
      (t.runState = .running → (∀ a, i ≠ .out a) ∧ ∀ a, i = .in_ a → t.latch ≠ none)) ∨
    (∃ a v, i = .out a ∧ s.resolve a = some v ∧ t.events = s.events ++ [.out v] ∧
      t.runState = .running) ∨
    (∃ a c, i = .in_ a ∧ s.latch ≠ none ∧ t.latch = none ∧ t.events = s.events ++ [.in_ c] ∧
      t.runState = .running)

/-- R6, R23, R119: MEM_SIZE and STACK_CAPACITY are fixed for a run. -/
def Obligations.ParametersNeverChange : Prop :=
  ∀ s t : State, step s = .next t → t.params = s.params

/-! ## Frames: what an instruction leaves unchanged whenever it gives a next state -/

/-- The ten instructions that write one register and touch nothing else but the pc. -/
def Obligations.RegisterWritersFrame : Prop :=
  ∀ (i : Instr) (s t : State),
    ((∃ a b, i = .set a b ∨ i = .not a b ∨ i = .rmem a b) ∨
     (∃ a b c, i = .eq a b c ∨ i = .gt a b c ∨ i = .add a b c ∨ i = .mult a b c ∨
       i = .mod a b c ∨ i = .and a b c ∨ i = .or a b c)) →
    exec i s = .next t →
    SameRegsButDest i s t ∧ t.stack = s.stack ∧ SameMemory s t ∧ t.params = s.params ∧
      SamePorts s t ∧ SameStatusOrFault s t

/-- `jmp`, `jt`, `jf`, `noop` and `halt`: everything but the pc, and for `halt` RUN_STATE. -/
def Obligations.JumpNoopHaltFrame : Prop :=
  ∀ (i : Instr) (s t : State),
    ((∃ a, i = .jmp a) ∨ (∃ a b, i = .jt a b ∨ i = .jf a b) ∨ i = .noop ∨ i = .halt) →
    exec i s = .next t →
    SameRegs s t ∧ t.stack = s.stack ∧ SameMemory s t ∧ t.params = s.params ∧ SamePorts s t ∧
      (SameStatusOrFault s t ∨
        (i = .halt ∧ t.runState = .halted ∧ t.faultKind = s.faultKind ∧ t.faultPc = s.faultPc ∧
          t.latch = s.latch))

/-- `push`, `pop`, `call` and `ret`: everything but the stack, the pc, the register of `pop`, and
RUN_STATE where `ret` halts. What the stack becomes is `OnlyFourInstructionsTouchStack`. -/
def Obligations.StackInstructionsFrame : Prop :=
  ∀ (i : Instr) (s t : State),
    ((∃ a, i = .push a ∨ i = .pop a ∨ i = .call a) ∨ i = .ret) →
    exec i s = .next t →
    SameRegsButDest i s t ∧ SameMemory s t ∧ t.params = s.params ∧ SamePorts s t ∧
      (SameStatusOrFault s t ∨
        (i = .ret ∧ s.stack = [] ∧ t.runState = .halted ∧ t.faultKind = s.faultKind ∧
          t.faultPc = s.faultPc ∧ t.latch = s.latch))

/-- `wmem a,b`: everything but the pc and the one cell at the address slot a resolves to. -/
def Obligations.WmemFrame : Prop :=
  ∀ (a b : Operand) (s t : State), exec (.wmem a b) s = .next t →
    SameRegs s t ∧ t.stack = s.stack ∧ t.params = s.params ∧ SamePorts s t ∧
      SameStatusOrFault s t ∧
      (∀ v, s.resolve a = some v → ∀ c, c ≠ v.toNat → t.memRead c = s.memRead c) ∧
      (s.resolve a = none → SameMemory s t)

/-- `out` and `in`: everything but the pc, the register of `in`, the ports, and the latch while an
`in` waits. -/
def Obligations.PortInstructionsFrame : Prop :=
  ∀ (a : Operand) (s t : State),
    (exec (.out a) s = .next t →
      SameRegs s t ∧ t.stack = s.stack ∧ SameMemory s t ∧ t.params = s.params ∧
        t.input = s.input ∧ t.polls = s.polls ∧ SameStatusOrFault s t) ∧
    (exec (.in_ a) s = .next t →
      SameRegsButDest (.in_ a) s t ∧ t.stack = s.stack ∧ SameMemory s t ∧ t.params = s.params ∧
        ((t.runState = s.runState ∧ t.faultKind = s.faultKind ∧ t.faultPc = s.faultPc) ∨
          ∃ k, FaultTaken k s t))
end

