-- ==== Sys2Proof/Laws/State.lean ====
section
/-! SUPPORT. Each named update of State, field by field, and the readers of State over them. -/

namespace Sys2Proof.Machine

/-! ## writeReg -/

@[simp] theorem State.writeReg_regs {w : Nat} (s : State) (r : Reg) (v : BitVec w) :
    (s.writeReg r v).regs = s.regs.set r (v.setWidth 15) := rfl
@[simp] theorem State.writeReg_pc {w : Nat} (s : State) (r : Reg) (v : BitVec w) :
    (s.writeReg r v).pc = s.pc := rfl
@[simp] theorem State.writeReg_stack {w : Nat} (s : State) (r : Reg) (v : BitVec w) :
    (s.writeReg r v).stack = s.stack := rfl
@[simp] theorem State.writeReg_mem {w : Nat} (s : State) (r : Reg) (v : BitVec w) :
    (s.writeReg r v).mem = s.mem := rfl
@[simp] theorem State.writeReg_runState {w : Nat} (s : State) (r : Reg) (v : BitVec w) :
    (s.writeReg r v).runState = s.runState := rfl
@[simp] theorem State.writeReg_faultKind {w : Nat} (s : State) (r : Reg) (v : BitVec w) :
    (s.writeReg r v).faultKind = s.faultKind := rfl
@[simp] theorem State.writeReg_faultPc {w : Nat} (s : State) (r : Reg) (v : BitVec w) :
    (s.writeReg r v).faultPc = s.faultPc := rfl
@[simp] theorem State.writeReg_latch {w : Nat} (s : State) (r : Reg) (v : BitVec w) :
    (s.writeReg r v).latch = s.latch := rfl
@[simp] theorem State.writeReg_params {w : Nat} (s : State) (r : Reg) (v : BitVec w) :
    (s.writeReg r v).params = s.params := rfl
@[simp] theorem State.writeReg_events {w : Nat} (s : State) (r : Reg) (v : BitVec w) :
    (s.writeReg r v).events = s.events := rfl
@[simp] theorem State.writeReg_input {w : Nat} (s : State) (r : Reg) (v : BitVec w) :
    (s.writeReg r v).input = s.input := rfl
@[simp] theorem State.writeReg_polls {w : Nat} (s : State) (r : Reg) (v : BitVec w) :
    (s.writeReg r v).polls = s.polls := rfl
@[simp] theorem State.writeReg_memRead {w : Nat} (s : State) (r : Reg) (v : BitVec w) (b : Nat) :
    (s.writeReg r v).memRead b = s.memRead b := rfl
@[simp] theorem State.writeReg_memSize {w : Nat} (s : State) (r : Reg) (v : BitVec w) :
    (s.writeReg r v).memSize = s.memSize := rfl

/-! ## memWrite -/

@[simp] theorem State.memWrite_regs (s : State) (a : Nat) (v : Cell) :
    (s.memWrite a v).regs = s.regs := rfl
@[simp] theorem State.memWrite_pc (s : State) (a : Nat) (v : Cell) :
    (s.memWrite a v).pc = s.pc := rfl
@[simp] theorem State.memWrite_stack (s : State) (a : Nat) (v : Cell) :
    (s.memWrite a v).stack = s.stack := rfl
@[simp] theorem State.memWrite_mem (s : State) (a : Nat) (v : Cell) :
    (s.memWrite a v).mem = Memory.write s.mem a v := rfl
@[simp] theorem State.memWrite_runState (s : State) (a : Nat) (v : Cell) :
    (s.memWrite a v).runState = s.runState := rfl
@[simp] theorem State.memWrite_faultKind (s : State) (a : Nat) (v : Cell) :
    (s.memWrite a v).faultKind = s.faultKind := rfl
@[simp] theorem State.memWrite_faultPc (s : State) (a : Nat) (v : Cell) :
    (s.memWrite a v).faultPc = s.faultPc := rfl
@[simp] theorem State.memWrite_latch (s : State) (a : Nat) (v : Cell) :
    (s.memWrite a v).latch = s.latch := rfl
@[simp] theorem State.memWrite_params (s : State) (a : Nat) (v : Cell) :
    (s.memWrite a v).params = s.params := rfl
@[simp] theorem State.memWrite_events (s : State) (a : Nat) (v : Cell) :
    (s.memWrite a v).events = s.events := rfl
@[simp] theorem State.memWrite_input (s : State) (a : Nat) (v : Cell) :
    (s.memWrite a v).input = s.input := rfl
@[simp] theorem State.memWrite_polls (s : State) (a : Nat) (v : Cell) :
    (s.memWrite a v).polls = s.polls := rfl
@[simp] theorem State.memWrite_readReg (s : State) (a : Nat) (v : Cell) (q : Reg) :
    (s.memWrite a v).readReg q = s.readReg q := rfl
@[simp] theorem State.memWrite_memSize (s : State) (a : Nat) (v : Cell) :
    (s.memWrite a v).memSize = s.memSize := rfl

/-! ## advance -/

@[simp] theorem State.advance_regs (s : State) (n : Nat) :
    (s.advance n).regs = s.regs := rfl
@[simp] theorem State.advance_pc (s : State) (n : Nat) :
    (s.advance n).pc = s.pc + BitVec.ofNat 16 (1 + n) := rfl
@[simp] theorem State.advance_stack (s : State) (n : Nat) :
    (s.advance n).stack = s.stack := rfl
@[simp] theorem State.advance_mem (s : State) (n : Nat) :
    (s.advance n).mem = s.mem := rfl
@[simp] theorem State.advance_runState (s : State) (n : Nat) :
    (s.advance n).runState = s.runState := rfl
@[simp] theorem State.advance_faultKind (s : State) (n : Nat) :
    (s.advance n).faultKind = s.faultKind := rfl
@[simp] theorem State.advance_faultPc (s : State) (n : Nat) :
    (s.advance n).faultPc = s.faultPc := rfl
@[simp] theorem State.advance_latch (s : State) (n : Nat) :
    (s.advance n).latch = s.latch := rfl
@[simp] theorem State.advance_params (s : State) (n : Nat) :
    (s.advance n).params = s.params := rfl
@[simp] theorem State.advance_events (s : State) (n : Nat) :
    (s.advance n).events = s.events := rfl
@[simp] theorem State.advance_input (s : State) (n : Nat) :
    (s.advance n).input = s.input := rfl
@[simp] theorem State.advance_polls (s : State) (n : Nat) :
    (s.advance n).polls = s.polls := rfl
@[simp] theorem State.advance_readReg (s : State) (n : Nat) (q : Reg) :
    (s.advance n).readReg q = s.readReg q := rfl
@[simp] theorem State.advance_memRead (s : State) (n : Nat) (b : Nat) :
    (s.advance n).memRead b = s.memRead b := rfl
@[simp] theorem State.advance_memSize (s : State) (n : Nat) :
    (s.advance n).memSize = s.memSize := rfl

/-! ## jump -/

@[simp] theorem State.jump_regs (s : State) (t : Cell) :
    (s.jump t).regs = s.regs := rfl
@[simp] theorem State.jump_pc (s : State) (t : Cell) :
    (s.jump t).pc = t := rfl
@[simp] theorem State.jump_stack (s : State) (t : Cell) :
    (s.jump t).stack = s.stack := rfl
@[simp] theorem State.jump_mem (s : State) (t : Cell) :
    (s.jump t).mem = s.mem := rfl
@[simp] theorem State.jump_runState (s : State) (t : Cell) :
    (s.jump t).runState = s.runState := rfl
@[simp] theorem State.jump_faultKind (s : State) (t : Cell) :
    (s.jump t).faultKind = s.faultKind := rfl
@[simp] theorem State.jump_faultPc (s : State) (t : Cell) :
    (s.jump t).faultPc = s.faultPc := rfl
@[simp] theorem State.jump_latch (s : State) (t : Cell) :
    (s.jump t).latch = s.latch := rfl
@[simp] theorem State.jump_params (s : State) (t : Cell) :
    (s.jump t).params = s.params := rfl
@[simp] theorem State.jump_events (s : State) (t : Cell) :
    (s.jump t).events = s.events := rfl
@[simp] theorem State.jump_input (s : State) (t : Cell) :
    (s.jump t).input = s.input := rfl
@[simp] theorem State.jump_polls (s : State) (t : Cell) :
    (s.jump t).polls = s.polls := rfl
@[simp] theorem State.jump_readReg (s : State) (t : Cell) (q : Reg) :
    (s.jump t).readReg q = s.readReg q := rfl
@[simp] theorem State.jump_memRead (s : State) (t : Cell) (b : Nat) :
    (s.jump t).memRead b = s.memRead b := rfl
@[simp] theorem State.jump_memSize (s : State) (t : Cell) :
    (s.jump t).memSize = s.memSize := rfl

/-! ## raise -/

@[simp] theorem State.raise_regs (s : State) (k : FaultKind) :
    (s.raise k).regs = s.regs := rfl
@[simp] theorem State.raise_pc (s : State) (k : FaultKind) :
    (s.raise k).pc = s.pc := rfl
@[simp] theorem State.raise_stack (s : State) (k : FaultKind) :
    (s.raise k).stack = s.stack := rfl
@[simp] theorem State.raise_mem (s : State) (k : FaultKind) :
    (s.raise k).mem = s.mem := rfl
@[simp] theorem State.raise_runState (s : State) (k : FaultKind) :
    (s.raise k).runState = .faulted := rfl
@[simp] theorem State.raise_faultKind (s : State) (k : FaultKind) :
    (s.raise k).faultKind = some k := rfl
@[simp] theorem State.raise_faultPc (s : State) (k : FaultKind) :
    (s.raise k).faultPc = s.pc := rfl
@[simp] theorem State.raise_latch (s : State) (k : FaultKind) :
    (s.raise k).latch = none := rfl
@[simp] theorem State.raise_params (s : State) (k : FaultKind) :
    (s.raise k).params = s.params := rfl
@[simp] theorem State.raise_events (s : State) (k : FaultKind) :
    (s.raise k).events = s.events := rfl
@[simp] theorem State.raise_input (s : State) (k : FaultKind) :
    (s.raise k).input = s.input := rfl
@[simp] theorem State.raise_polls (s : State) (k : FaultKind) :
    (s.raise k).polls = s.polls := rfl
@[simp] theorem State.raise_readReg (s : State) (k : FaultKind) (q : Reg) :
    (s.raise k).readReg q = s.readReg q := rfl
@[simp] theorem State.raise_memRead (s : State) (k : FaultKind) (b : Nat) :
    (s.raise k).memRead b = s.memRead b := rfl
@[simp] theorem State.raise_memSize (s : State) (k : FaultKind) :
    (s.raise k).memSize = s.memSize := rfl

/-! ## haltRun -/

@[simp] theorem State.haltRun_regs (s : State) :
    s.haltRun.regs = s.regs := rfl
@[simp] theorem State.haltRun_pc (s : State) :
    s.haltRun.pc = s.pc := rfl
@[simp] theorem State.haltRun_stack (s : State) :
    s.haltRun.stack = s.stack := rfl
@[simp] theorem State.haltRun_mem (s : State) :
    s.haltRun.mem = s.mem := rfl
@[simp] theorem State.haltRun_runState (s : State) :
    s.haltRun.runState = .halted := rfl
@[simp] theorem State.haltRun_faultKind (s : State) :
    s.haltRun.faultKind = s.faultKind := rfl
@[simp] theorem State.haltRun_faultPc (s : State) :
    s.haltRun.faultPc = s.faultPc := rfl
@[simp] theorem State.haltRun_latch (s : State) :
    s.haltRun.latch = s.latch := rfl
@[simp] theorem State.haltRun_params (s : State) :
    s.haltRun.params = s.params := rfl
@[simp] theorem State.haltRun_events (s : State) :
    s.haltRun.events = s.events := rfl
@[simp] theorem State.haltRun_input (s : State) :
    s.haltRun.input = s.input := rfl
@[simp] theorem State.haltRun_polls (s : State) :
    s.haltRun.polls = s.polls := rfl
@[simp] theorem State.haltRun_readReg (s : State) (q : Reg) :
    s.haltRun.readReg q = s.readReg q := rfl
@[simp] theorem State.haltRun_memRead (s : State) (b : Nat) :
    s.haltRun.memRead b = s.memRead b := rfl
@[simp] theorem State.haltRun_memSize (s : State) :
    s.haltRun.memSize = s.memSize := rfl

/-! ## wait -/

@[simp] theorem State.wait_regs (s : State) (i : Instr) :
    (s.wait i).regs = s.regs := rfl
@[simp] theorem State.wait_pc (s : State) (i : Instr) :
    (s.wait i).pc = s.pc := rfl
@[simp] theorem State.wait_stack (s : State) (i : Instr) :
    (s.wait i).stack = s.stack := rfl
@[simp] theorem State.wait_mem (s : State) (i : Instr) :
    (s.wait i).mem = s.mem := rfl
@[simp] theorem State.wait_runState (s : State) (i : Instr) :
    (s.wait i).runState = s.runState := rfl
@[simp] theorem State.wait_faultKind (s : State) (i : Instr) :
    (s.wait i).faultKind = s.faultKind := rfl
@[simp] theorem State.wait_faultPc (s : State) (i : Instr) :
    (s.wait i).faultPc = s.faultPc := rfl
@[simp] theorem State.wait_latch (s : State) (i : Instr) :
    (s.wait i).latch = some { ia := s.pc, instr := i } := rfl
@[simp] theorem State.wait_params (s : State) (i : Instr) :
    (s.wait i).params = s.params := rfl
@[simp] theorem State.wait_events (s : State) (i : Instr) :
    (s.wait i).events = s.events := rfl
@[simp] theorem State.wait_input (s : State) (i : Instr) :
    (s.wait i).input = s.input := rfl
@[simp] theorem State.wait_polls (s : State) (i : Instr) :
    (s.wait i).polls = s.polls := rfl
@[simp] theorem State.wait_readReg (s : State) (i : Instr) (q : Reg) :
    (s.wait i).readReg q = s.readReg q := rfl
@[simp] theorem State.wait_memRead (s : State) (i : Instr) (b : Nat) :
    (s.wait i).memRead b = s.memRead b := rfl
@[simp] theorem State.wait_memSize (s : State) (i : Instr) :
    (s.wait i).memSize = s.memSize := rfl

/-! ## emit -/

@[simp] theorem State.emit_regs (s : State) (v : Word) :
    (s.emit v).regs = s.regs := rfl
@[simp] theorem State.emit_pc (s : State) (v : Word) :
    (s.emit v).pc = s.pc := rfl
@[simp] theorem State.emit_stack (s : State) (v : Word) :
    (s.emit v).stack = s.stack := rfl
@[simp] theorem State.emit_mem (s : State) (v : Word) :
    (s.emit v).mem = s.mem := rfl
@[simp] theorem State.emit_runState (s : State) (v : Word) :
    (s.emit v).runState = s.runState := rfl
@[simp] theorem State.emit_faultKind (s : State) (v : Word) :
    (s.emit v).faultKind = s.faultKind := rfl
@[simp] theorem State.emit_faultPc (s : State) (v : Word) :
    (s.emit v).faultPc = s.faultPc := rfl
@[simp] theorem State.emit_latch (s : State) (v : Word) :
    (s.emit v).latch = s.latch := rfl
@[simp] theorem State.emit_params (s : State) (v : Word) :
    (s.emit v).params = s.params := rfl
@[simp] theorem State.emit_events (s : State) (v : Word) :
    (s.emit v).events = s.events ++ [.out v] := rfl
@[simp] theorem State.emit_input (s : State) (v : Word) :
    (s.emit v).input = s.input := rfl
@[simp] theorem State.emit_polls (s : State) (v : Word) :
    (s.emit v).polls = s.polls := rfl
@[simp] theorem State.emit_readReg (s : State) (v : Word) (q : Reg) :
    (s.emit v).readReg q = s.readReg q := rfl
@[simp] theorem State.emit_memRead (s : State) (v : Word) (b : Nat) :
    (s.emit v).memRead b = s.memRead b := rfl
@[simp] theorem State.emit_memSize (s : State) (v : Word) :
    (s.emit v).memSize = s.memSize := rfl

/-! ## polled -/

@[simp] theorem State.polled_regs (s : State) : s.polled.regs = s.regs := by
  unfold State.polled; split <;> rfl
@[simp] theorem State.polled_pc (s : State) : s.polled.pc = s.pc := by
  unfold State.polled; split <;> rfl
@[simp] theorem State.polled_stack (s : State) : s.polled.stack = s.stack := by
  unfold State.polled; split <;> rfl
@[simp] theorem State.polled_mem (s : State) : s.polled.mem = s.mem := by
  unfold State.polled; split <;> rfl
@[simp] theorem State.polled_runState (s : State) : s.polled.runState = s.runState := by
  unfold State.polled; split <;> rfl
@[simp] theorem State.polled_faultKind (s : State) : s.polled.faultKind = s.faultKind := by
  unfold State.polled; split <;> rfl
@[simp] theorem State.polled_faultPc (s : State) : s.polled.faultPc = s.faultPc := by
  unfold State.polled; split <;> rfl
@[simp] theorem State.polled_latch (s : State) : s.polled.latch = s.latch := by
  unfold State.polled; split <;> rfl
@[simp] theorem State.polled_params (s : State) : s.polled.params = s.params := by
  unfold State.polled; split <;> rfl
@[simp] theorem State.polled_events (s : State) : s.polled.events = s.events := by
  unfold State.polled; split <;> rfl

/-! ## deliver and discardOffer -/

@[simp] theorem State.deliver_regs (s : State) (c : Word) : (s.deliver c).regs = s.regs := rfl
@[simp] theorem State.deliver_pc (s : State) (c : Word) : (s.deliver c).pc = s.pc := rfl
@[simp] theorem State.deliver_stack (s : State) (c : Word) : (s.deliver c).stack = s.stack := rfl
@[simp] theorem State.deliver_mem (s : State) (c : Word) : (s.deliver c).mem = s.mem := rfl
@[simp] theorem State.deliver_runState (s : State) (c : Word) : (s.deliver c).runState = s.runState := rfl
@[simp] theorem State.deliver_faultKind (s : State) (c : Word) : (s.deliver c).faultKind = s.faultKind := rfl
@[simp] theorem State.deliver_faultPc (s : State) (c : Word) : (s.deliver c).faultPc = s.faultPc := rfl
@[simp] theorem State.deliver_latch (s : State) (c : Word) : (s.deliver c).latch = s.latch := rfl
@[simp] theorem State.deliver_params (s : State) (c : Word) : (s.deliver c).params = s.params := rfl
@[simp] theorem State.deliver_events (s : State) (c : Word) : (s.deliver c).events = s.events := rfl
@[simp] theorem State.deliver_polls (s : State) (c : Word) : (s.deliver c).polls = s.polls := rfl
@[simp] theorem State.deliver_input (s : State) (c : Word) :
    (s.deliver c).input = s.input ++ [c] := rfl

/-- With an `in` waiting, RESET discards what is on offer (60_exceptions.md R114). -/
theorem State.discardOffer_waiting {s : State} (hr : s.runState = .running) (hl : s.latch ≠ none) :
    s.discardOffer = s.polled := by
  simp [State.discardOffer, State.waitIn, hr, Option.isSome_iff_ne_none, hl]

/-- With nothing latched, no character is due and the port is left alone. -/
@[simp] theorem State.discardOffer_of_latch_none {s : State} (hl : s.latch = none) :
    s.discardOffer = s := by simp [State.discardOffer, State.waitIn, hl]

/-! ## reset -/

@[simp] theorem State.reset_regs : State.reset.regs = RegFile.zero := rfl
@[simp] theorem State.reset_pc : State.reset.pc = 0#16 := rfl
@[simp] theorem State.reset_stack : State.reset.stack = [] := rfl
@[simp] theorem State.reset_mem : State.reset.mem = [] := rfl
@[simp] theorem State.reset_runState : State.reset.runState = .running := rfl
@[simp] theorem State.reset_faultKind : State.reset.faultKind = none := rfl
@[simp] theorem State.reset_faultPc : State.reset.faultPc = 0#16 := rfl
@[simp] theorem State.reset_latch : State.reset.latch = none := rfl
@[simp] theorem State.reset_events : State.reset.events = [] := rfl
@[simp] theorem State.reset_input : State.reset.input = [] := rfl
@[simp] theorem State.reset_polls : State.reset.polls = 0 := rfl
@[simp] theorem State.reset_memSize : State.reset.memSize = 0 := rfl
@[simp] theorem State.reset_stackCapacity : State.reset.params.stackCapacity = none := rfl

end Sys2Proof.Machine
end

