-- ==== Sys2Proof/Laws/Memory.lean ====
section
/-! SUPPORT. The memory: what a read sees after a write, and that every memory operation keeps the
canonical form and the bound on addresses. -/

namespace Sys2Proof.Machine

theorem Memory.read_cons (p : Nat × Cell) (m : Memory) (a : Nat) :
    Memory.read (p :: m) a = if p.1 = a then p.2 else Memory.read m a := rfl

/-- A cell that no entry lists holds 0. -/
theorem Memory.read_of_forall_ne {m : Memory} {a : Nat} (h : ∀ p ∈ m, p.1 ≠ a) :
    Memory.read m a = 0#16 := by
  induction m with
  | nil => rfl
  | cons p m ih =>
    rw [Memory.read_cons, if_neg (h p (by simp))]
    exact ih fun q hq => h q (by simp [hq])

/-- A write leaves every other cell alone. -/
theorem Memory.read_write_other (m : Memory) {a b : Nat} (v : Cell) (h : b ≠ a) :
    Memory.read (Memory.write m a v) b = Memory.read m b := by
  induction m with
  | nil => unfold Memory.write; split <;> simp [Memory.read, Ne.symm h]
  | cons p m ih =>
    obtain ⟨c, w⟩ := p
    unfold Memory.write
    by_cases hlt : a < c
    · by_cases hv : v = 0#16 <;> simp [hlt, hv, Memory.read_cons, Ne.symm h]
    · by_cases hac : a = c
      · subst hac
        by_cases hv : v = 0#16 <;> simp [hv, Memory.read_cons, Ne.symm h]
      · simp [hlt, hac, Memory.read_cons, ih]

/-- The addresses a write lists are the written one and those listed before. -/
theorem Memory.mem_write {m : Memory} {a : Nat} {v : Cell} {p : Nat × Cell}
    (hp : p ∈ Memory.write m a v) : (p.1 = a ∧ p.2 = v ∧ v ≠ 0#16) ∨ p ∈ m := by
  induction m with
  | nil =>
    by_cases hv : v = 0#16
    · simp [Memory.write, hv] at hp
    · simp [Memory.write, hv] at hp; simp [hp, hv]
  | cons q m ih =>
    obtain ⟨c, w⟩ := q
    unfold Memory.write at hp
    by_cases hlt : a < c
    · by_cases hv : v = 0#16
      · simp [hlt, hv] at hp; simpa using .inr hp
      · simp [hlt, hv] at hp
        rcases hp with rfl | hp
        · simp [hv]
        · simpa using .inr hp
    · by_cases hac : a = c
      · by_cases hv : v = 0#16
        · simp [hac, hv] at hp; simp [hp]
        · simp [hac, hv] at hp
          rcases hp with rfl | hp
          · simp [hac, hv]
          · simp [hp]
      · simp [hlt, hac] at hp
        rcases hp with rfl | hp
        · simp
        · rcases ih hp with h | h
          · exact .inl h
          · simp [h]

/-- A write keeps the canonical form. -/
theorem Memory.write_wf {m : Memory} (h : Memory.wf m) (a : Nat) (v : Cell) :
    Memory.wf (Memory.write m a v) := by
  refine ⟨?_, fun p hp => ?_⟩
  · induction m with
    | nil => unfold Memory.write; split <;> simp
    | cons q m ih =>
      obtain ⟨c, w⟩ := q
      obtain ⟨hhead, htail⟩ := List.pairwise_cons.1 h.1
      have hm : Memory.wf m := ⟨htail, fun p hp => h.2 p (by simp [hp])⟩
      unfold Memory.write
      by_cases hlt : a < c
      · by_cases hv : v = 0#16
        · simpa [hlt, hv] using h.1
        · simp only [hlt, hv, if_true, if_false, List.pairwise_cons, List.mem_cons]
          refine ⟨?_, hhead, htail⟩
          rintro p (rfl | hp)
          · exact hlt
          · exact hlt.trans (hhead p hp)
      · by_cases hac : a = c
        · subst hac
          by_cases hv : v = 0#16
          · simpa [hv] using htail
          · simpa [hv] using And.intro hhead htail
        · simp only [hlt, hac, if_false, List.pairwise_cons]
          refine ⟨fun p hp => ?_, ih hm⟩
          rcases Memory.mem_write hp with ⟨h1, -⟩ | h1
          · simp only [h1]; omega
          · exact hhead p h1
  · rcases Memory.mem_write hp with ⟨-, h2, h3⟩ | h1
    · rwa [h2]
    · exact h.2 p h1

/-- A write keeps every listed address below a bound that the written one meets. -/
theorem Memory.write_bound {m : Memory} {n a : Nat} (h : ∀ p ∈ m, p.1 < n) (ha : a < n) (v : Cell) :
    ∀ p ∈ Memory.write m a v, p.1 < n := by
  intro p hp
  rcases Memory.mem_write hp with ⟨h1, -⟩ | h1
  · omega
  · exact h p h1

/-- A write to a canonical memory is read back. -/
theorem Memory.read_write_self {m : Memory} (h : Memory.wf m) (a : Nat) (v : Cell) :
    Memory.read (Memory.write m a v) a = v := by
  induction m with
  | nil => unfold Memory.write; split <;> simp_all [Memory.read]
  | cons q m ih =>
    obtain ⟨c, w⟩ := q
    have hm : Memory.wf m := ⟨(List.pairwise_cons.1 h.1).2, fun p hp => h.2 p (by simp [hp])⟩
    have hhead : ∀ p ∈ m, c < p.1 := (List.pairwise_cons.1 h.1).1
    unfold Memory.write
    by_cases hlt : a < c
    · by_cases hv : v = 0#16
      · have hne : Memory.read ((c, w) :: m) a = 0#16 := Memory.read_of_forall_ne (by
          intro p hp
          rcases List.mem_cons.1 hp with rfl | hp
          · exact Nat.ne_of_gt hlt
          · have := hhead p hp; omega)
        simp [hlt, hv, hne]
      · simp [hlt, hv, Memory.read_cons]
    · by_cases hac : a = c
      · subst hac
        by_cases hv : v = 0#16
        · have hne : Memory.read m a = 0#16 :=
            Memory.read_of_forall_ne fun p hp => Nat.ne_of_gt (hhead p hp)
          simp [hv, hne]
        · simp [hv, Memory.read_cons]
      · simp [hlt, hac, Memory.read_cons, ih hm, Ne.symm hac]

/-- The addresses of a memory made from cells lie in their range. -/
theorem Memory.mem_ofCells {vs : List Cell} {a : Nat} {p : Nat × Cell}
    (hp : p ∈ Memory.ofCells a vs) : a ≤ p.1 ∧ p.1 < a + vs.length ∧ p.2 ≠ 0#16 := by
  induction vs generalizing a with
  | nil => simp [Memory.ofCells] at hp
  | cons v vs ih =>
    unfold Memory.ofCells at hp
    by_cases hv : v = 0#16
    · obtain ⟨h1, h2, h3⟩ := ih (by simpa [hv] using hp)
      exact ⟨by omega, by simp only [List.length_cons]; omega, h3⟩
    · rcases List.mem_cons.1 (by simpa [hv] using hp) with rfl | hp
      · simp [hv]
      · obtain ⟨h1, h2, h3⟩ := ih hp
        exact ⟨by omega, by simp only [List.length_cons]; omega, h3⟩

/-- A memory made from cells is canonical. -/
theorem Memory.ofCells_wf (a : Nat) (vs : List Cell) : Memory.wf (Memory.ofCells a vs) := by
  refine ⟨?_, fun p hp => (Memory.mem_ofCells hp).2.2⟩
  induction vs generalizing a with
  | nil => simp [Memory.ofCells]
  | cons v vs ih =>
    unfold Memory.ofCells
    by_cases hv : v = 0#16
    · simpa [hv] using ih (a + 1)
    · simp only [hv, if_false, List.pairwise_cons]
      exact ⟨fun p hp => (Memory.mem_ofCells hp).1, ih (a + 1)⟩

/-- A memory made from cells holds each of them, and 0 beyond. -/
theorem Memory.read_ofCells (a k : Nat) (vs : List Cell) :
    Memory.read (Memory.ofCells a vs) (a + k) = vs.getD k 0#16 := by
  induction vs generalizing a k with
  | nil => simp [Memory.ofCells, Memory.read]
  | cons v vs ih =>
    unfold Memory.ofCells
    cases k with
    | zero =>
      by_cases hv : v = 0#16
      · have : Memory.read (Memory.ofCells (a + 1) vs) a = 0#16 :=
          Memory.read_of_forall_ne fun p hp => Nat.ne_of_gt (Memory.mem_ofCells hp).1
        simp [hv, this]
      · simp [hv, Memory.read_cons]
    | succ k =>
      have hk : a + (k + 1) = a + 1 + k := by omega
      by_cases hv : v = 0#16
      · simp [hv, hk, ih (a + 1) k]
      · simp [hv, Memory.read_cons, hk, ih (a + 1) k]
        omega

/-- Writing words keeps the canonical form. -/
theorem Memory.writeWords_wf {m : Memory} (h : Memory.wf m) (a : Nat) (vs : List Cell) :
    Memory.wf (Memory.writeWords m a vs) := by
  induction vs generalizing m a with
  | nil => exact h
  | cons v vs ih => exact ih (Memory.write_wf h a v) (a + 1)

/-- `memWrite` keeps the canonical form. -/
theorem State.memWrite_wf {s : State} (h : Memory.wf s.mem) (a : Nat) (v : Cell) :
    Memory.wf (s.memWrite a v).mem := Memory.write_wf h a v

theorem State.memWrite_read_self {s : State} (h : Memory.wf s.mem) (a : Nat) (v : Cell) :
    (s.memWrite a v).memRead a = v := Memory.read_write_self h a v

theorem State.memWrite_read_other (s : State) {a b : Nat} (v : Cell) (h : b ≠ a) :
    (s.memWrite a v).memRead b = s.memRead b := Memory.read_write_other s.mem v h

/-- The memory of the state after reset is canonical. -/
theorem State.reset_mem_wf : Memory.wf State.reset.mem := by decide

end Sys2Proof.Machine
end

