-- ==== Sys2Proof/Laws/Ops.lean ====
section
/-! SUPPORT. What each shared operation can do, said once: the register file, the operand forms, the
checked accesses, the port, the fetch and the step. -/

namespace Sys2Proof.Machine

/-! ## Registers -/

@[simp] theorem RegFile.get_set_self (f : RegFile) (r : Reg) (v : Word) : (f.set r v).get r = v := by
  cases r <;> rfl

theorem RegFile.get_set_other (f : RegFile) {r q : Reg} (v : Word) (h : q ≠ r) :
    (f.set r v).get q = f.get q := by
  cases r <;> cases q <;> first | rfl | exact absurd rfl h

@[simp] theorem State.readReg_writeReg_self {w : Nat} (s : State) (r : Reg) (v : BitVec w) :
    (s.writeReg r v).readReg r = v.setWidth 15 := RegFile.get_set_self ..

theorem State.readReg_writeReg_other {w : Nat} (s : State) {r q : Reg} (v : BitVec w) (h : q ≠ r) :
    (s.writeReg r v).readReg q = s.readReg q := RegFile.get_set_other _ _ h

/-! ## Operands -/

@[simp] theorem State.resolve_lit (s : State) (v : Word) : s.resolve (.lit v) = some v := rfl
@[simp] theorem State.resolve_reg (s : State) (r : Reg) :
    s.resolve (.reg r) = some (s.readReg r) := rfl
@[simp] theorem State.resolve_invalid (s : State) (w : Cell) : s.resolve (.invalid w) = none := rfl
@[simp] theorem regidx_reg (r : Reg) : regidx (.reg r) = some r := rfl

/-- A V slot resolves exactly when it passes its check (30_encoding.md R54). -/
theorem State.resolve_isSome (s : State) (o : Operand) :
    (s.resolve o).isSome = o.fits .value := by cases o <;> rfl

/-- A D slot names a register exactly when it passes its check (30_encoding.md R54). -/
theorem regidx_isSome (o : Operand) : (regidx o).isSome = o.fits .dest := by cases o <;> rfl

theorem regidx_eq_some {o : Operand} {r : Reg} : regidx o = some r ↔ o = .reg r := by
  cases o <;> simp [regidx]

theorem State.withValue_of_resolve {s : State} {o : Operand} {v : Word} (h : s.resolve o = some v)
    (k : Word → State) : s.withValue o k = k v := by simp [State.withValue, h]

theorem State.withValue_of_none {s : State} {o : Operand} (h : s.resolve o = none)
    (k : Word → State) : s.withValue o k = s.raise .invalidOperand := by simp [State.withValue, h]

@[simp] theorem State.withDest_reg (s : State) (r : Reg) (k : Reg → State) :
    s.withDest (.reg r) k = k r := rfl

theorem State.withDest_of_none {s : State} {o : Operand} (h : regidx o = none)
    (k : Reg → State) : s.withDest o k = s.raise .invalidOperand := by simp [State.withDest, h]

/-- Going on with a V slot raises InvalidOperand or goes on with its value. -/
theorem State.withValue_cases (s : State) (o : Operand) (k : Word → State) :
    (s.resolve o = none ∧ s.withValue o k = s.raise .invalidOperand) ∨
    ∃ v, s.resolve o = some v ∧ s.withValue o k = k v := by
  cases h : s.resolve o with
  | none => exact .inl ⟨rfl, State.withValue_of_none h k⟩
  | some v => exact .inr ⟨v, rfl, State.withValue_of_resolve h k⟩

/-- Going on with a D slot raises InvalidOperand or goes on with its register. -/
theorem State.withDest_cases (s : State) (o : Operand) (k : Reg → State) :
    (regidx o = none ∧ s.withDest o k = s.raise .invalidOperand) ∨
    ∃ r, o = .reg r ∧ s.withDest o k = k r := by
  cases o with
  | lit v => exact .inl ⟨rfl, rfl⟩
  | reg r => exact .inr ⟨r, rfl, rfl⟩
  | invalid w => exact .inl ⟨rfl, rfl⟩

/-- `unary` raises InvalidOperand or writes its function's value and takes the default next. -/
theorem State.unary_cases (s : State) (a b : Operand) (f : Word → Word) :
    ((regidx a = none ∨ s.resolve b = none) ∧ s.unary a b f = s.raise .invalidOperand) ∨
    ∃ r vb, a = .reg r ∧ s.resolve b = some vb ∧
      s.unary a b f = (s.writeReg r (f vb)).advance 2 := by
  unfold State.unary
  rcases s.withDest_cases a _ with ⟨ha, h⟩ | ⟨r, ha, h⟩ <;> rw [h]
  · exact .inl ⟨.inl ha, rfl⟩
  · rcases s.withValue_cases b _ with ⟨hb, h⟩ | ⟨vb, hb, h⟩ <;> rw [h]
    · exact .inl ⟨.inr hb, rfl⟩
    · exact .inr ⟨r, vb, ha, hb, rfl⟩

/-- `binary` raises InvalidOperand or writes its function's value and takes the default next. -/
theorem State.binary_cases (s : State) (a b c : Operand) (f : Word → Word → Word) :
    ((regidx a = none ∨ s.resolve b = none ∨ s.resolve c = none) ∧
      s.binary a b c f = s.raise .invalidOperand) ∨
    ∃ r vb vc, a = .reg r ∧ s.resolve b = some vb ∧ s.resolve c = some vc ∧
      s.binary a b c f = (s.writeReg r (f vb vc)).advance 3 := by
  unfold State.binary
  rcases s.withDest_cases a _ with ⟨ha, h⟩ | ⟨r, ha, h⟩ <;> rw [h]
  · exact .inl ⟨.inl ha, rfl⟩
  · rcases s.withValue_cases b _ with ⟨hb, h⟩ | ⟨vb, hb, h⟩ <;> rw [h]
    · exact .inl ⟨.inr (.inl hb), rfl⟩
    · rcases s.withValue_cases c _ with ⟨hc, h⟩ | ⟨vc, hc, h⟩ <;> rw [h]
      · exact .inl ⟨.inr (.inr hc), rfl⟩
      · exact .inr ⟨r, vb, vc, ha, hb, hc, rfl⟩

/-! ## Checked accesses -/

theorem State.readingCell_inside {s : State} {a : Word} (h : a.toNat < s.memSize)
    (k : Cell → State) : s.readingCell a k = k (s.memRead a.toNat) := by
  simp [State.readingCell, Nat.not_le.2 h]

theorem State.readingCell_outside {s : State} {a : Word} (h : s.memSize ≤ a.toNat)
    (k : Cell → State) : s.readingCell a k = s.raise .memoryOutOfBounds := by
  simp [State.readingCell, h]

theorem State.writingCell_inside {s : State} {a : Word} (h : a.toNat < s.memSize) (v : Cell)
    (k : State → State) : s.writingCell a v k = k (s.memWrite a.toNat v) := by
  simp [State.writingCell, Nat.not_le.2 h]

theorem State.writingCell_outside {s : State} {a : Word} (h : s.memSize ≤ a.toNat) (v : Cell)
    (k : State → State) : s.writingCell a v k = s.raise .memoryOutOfBounds := by
  simp [State.writingCell, h]

theorem State.pushing_room {s : State} (h : s.stackFull = false) (v : Cell) (k : State → State) :
    s.pushing v k = k { s with stack := v :: s.stack } := by simp [State.pushing, h]

theorem State.pushing_full {s : State} (h : s.stackFull = true) (v : Cell) (k : State → State) :
    s.pushing v k = s.raise .stackOverflow := by simp [State.pushing, h]

theorem State.popping_empty {s : State} (h : s.stack = []) (e : State) (k : Cell → State → State) :
    s.popping e k = e := by simp [State.popping, h]

theorem State.popping_cons {s : State} {v : Cell} {rest : List Cell} (h : s.stack = v :: rest)
    (e : State) (k : Cell → State → State) :
    s.popping e k = k v { s with stack := rest } := by simp [State.popping, h]

/-- The stack is full exactly when its depth is a finite STACK_CAPACITY (10_state.md R22). -/
theorem State.stackFull_iff (s : State) :
    s.stackFull = true ↔ s.params.stackCapacity = some s.stack.length := by
  unfold State.stackFull
  cases s.params.stackCapacity with
  | none => simp
  | some n => simpa using ⟨Eq.symm, Eq.symm⟩

/-! ## The input port -/

/-- A waiting `in` with nothing offered changes the poll count at most; with a character offered it
completes (40_execution_engine.md R70). -/
theorem State.receiving_cases (s : State) (ia : Cell) (r : Reg) :
    (s.offered = none ∧ s.receiving ia r = { s with polls := s.polls + 1 }) ∨
    ∃ c, s.offered = some c ∧
      s.receiving ia r =
        { (s.polled.writeReg r (normalizeInput c)) with
          pc := ia + 2#16, latch := none, events := s.events ++ [.in_ c] } := by
  unfold State.receiving
  cases h : s.offered with
  | some c => exact .inr ⟨c, rfl, rfl⟩
  | none =>
    refine .inl ⟨rfl, ?_⟩
    unfold State.offered at h
    cases hi : s.input with
    | nil => simp [State.polled, hi]
    | cons c rest => simp [hi] at h

/-! ## The fetch -/

@[simp] theorem State.cellsFrom_zero (s : State) (a : Nat) : s.cellsFrom a 0 = [] := rfl

theorem State.cellsFrom_inside {s : State} {a : Nat} (h : a < s.memSize) (n : Nat) :
    s.cellsFrom a (n + 1) = s.memRead a :: s.cellsFrom (a + 1) n := by
  simp [State.cellsFrom, h]

theorem State.cellsFrom_outside {s : State} {a : Nat} (h : s.memSize ≤ a) (n : Nat) :
    s.cellsFrom a n = [] := by
  cases n <;> simp [State.cellsFrom, Nat.not_lt.2 h]

/-- The k-th fetched cell is the k-th cell from the address up, while inside memory. -/
theorem State.cellsFrom_getElem? (s : State) (a n k : Nat) :
    (s.cellsFrom a n)[k]? =
      if k < n ∧ a + k < s.memSize then some (s.memRead (a + k)) else none := by
  induction n generalizing a k with
  | zero => simp
  | succ n ih =>
    by_cases h : a < s.memSize
    · rw [State.cellsFrom_inside h]
      cases k with
      | zero => simp [h]
      | succ k => simp [ih, Nat.add_assoc, Nat.add_comm 1 k]
    · rw [State.cellsFrom_outside (by omega)]
      simp
      omega

/-- Fetching from the same memory reads the same words. -/
theorem State.cellsFrom_congr {s t : State} (hm : ∀ a, t.memRead a = s.memRead a)
    (hp : t.memSize = s.memSize) (a n : Nat) : t.cellsFrom a n = s.cellsFrom a n := by
  induction n generalizing a with
  | zero => rfl
  | succ n ih => simp [State.cellsFrom, hm, hp, ih]

/-- A fetch gives the decoded instruction or the fault of the failed decode. -/
theorem State.fetch_cases (s : State) :
    (∃ i rest, decode (s.cellsFrom s.pc.toNat 4) = .ok (i, rest) ∧ s.fetch = .ok i) ∨
    ∃ e, decode (s.cellsFrom s.pc.toNat 4) = .error e ∧
      s.fetch = .error (DecodeError.faultKind e) := by
  unfold State.fetch
  cases h : decode (s.cellsFrom s.pc.toNat 4) with
  | ok p => exact .inl ⟨p.1, p.2, rfl, rfl⟩
  | error e => exact .inr ⟨e, rfl, rfl⟩

/-! ## The step -/

/-- What a step can do: go on with the latched `in`, execute the fetched instruction, or raise the
fault of a failed fetch, and each only while Running (40_execution_engine.md R69 to R71). -/
theorem step_cases {s t : State} (h : step s = .next t) :
    s.runState = .running ∧
    ((∃ l, s.latch = some l ∧ exec l.instr s = .next t) ∨
     (∃ i, s.latch = none ∧ s.fetch = .ok i ∧ exec i s = .next t) ∨
     ∃ k, s.latch = none ∧ s.fetch = .error k ∧ t = s.raise k) := by
  unfold step at h
  split at h <;> try contradiction
  rename_i hr
  refine ⟨hr, ?_⟩
  split at h
  · rename_i l hl; exact .inl ⟨l, hl, h⟩
  · rename_i hl
    split at h
    · rename_i i hf; exact .inr (.inl ⟨i, hl, hf, h⟩)
    · rename_i k hf; cases h; exact .inr (.inr ⟨k, hl, hf, rfl⟩)

theorem step_of_fetch {s : State} {i : Instr} (hr : s.runState = .running) (hl : s.latch = none)
    (hf : s.fetch = .ok i) : step s = exec i s := by simp [step, hr, hl, hf]

theorem step_of_fetch_error {s : State} {k : FaultKind} (hr : s.runState = .running)
    (hl : s.latch = none) (hf : s.fetch = .error k) : step s = .next (s.raise k) := by
  simp [step, hr, hl, hf]

theorem step_of_latch {s : State} {l : Latch} (hr : s.runState = .running)
    (hl : s.latch = some l) : step s = exec l.instr s := by simp [step, hr, hl]

/-! ## RESET -/

/-- The next state a load gives depends on the state before it in STACK_CAPACITY and the input port
alone (70_reset_and_hazards.md R118). -/
theorem State.resetPort_congr {s t : State} (load : ImageLoad)
    (hc : t.params.stackCapacity = s.params.stackCapacity)
    (hi : t.discardOffer.input = s.discardOffer.input)
    (hp : t.discardOffer.polls = s.discardOffer.polls) : t.resetPort load = s.resetPort load := by
  simp [State.resetPort, hc, hi, hp]

/-- The input port after RESET (60_exceptions.md R114). -/
theorem State.resetPort_input {s t : State} {load : ImageLoad} (h : s.resetPort load = some t) :
    t.input = s.discardOffer.input ∧ t.polls = s.discardOffer.polls := by
  unfold State.resetPort at h
  split at h <;> cases h
  exact ⟨rfl, rfl⟩

/-- A run that goes on takes one step and goes on from there. -/
theorem core_run_next {n : Nat} {s u : State} (h : Sys2Proof.core.run (n + 1) s = .next u) :
    ∃ t, step s = .next t ∧ Sys2Proof.core.run n t = .next u := by
  unfold Sys2Proof.core at h ⊢
  simp only [Host.Core.run] at h
  split at h
  · exact ⟨_, ‹_›, h⟩
  · cases h
  · cases h

end Sys2Proof.Machine
end

