-- ==== Sys2Proof/Laws/Decode.lean ====
section
/-! SUPPORT. The decoder and the encoder on operand words and on opcodes. -/

namespace Sys2Proof

theorem Reg.index_lt (r : Reg) : r.index < 8 := by cases r <;> decide

@[simp] theorem Reg.ofIndex_index (r : Reg) : Reg.ofIndex r.index = some r := by cases r <;> rfl

theorem Reg.index_of_ofIndex {n : Nat} {r : Reg} (h : Reg.ofIndex n = some r) : r.index = n := by
  unfold Reg.ofIndex at h
  split at h <;> first | (cases h; rfl) | contradiction

theorem Reg.ofIndex_eq_none {n : Nat} : Reg.ofIndex n = none ↔ 8 ≤ n := by
  unfold Reg.ofIndex
  split <;> simp_all
  omega

/-- A legal operand is read back from its word (30_encoding.md R51). -/
theorem Operand.ofCell_toCell {o : Operand} {k : SlotKind} (h : o.fits k = true) :
    Operand.ofCell o.toCell = o := by
  cases o with
  | lit v =>
    have hv : v.toNat < 32768 := v.isLt
    simp [Operand.ofCell, Operand.toCell, Nat.mod_eq_of_lt (show v.toNat < 65536 by omega), hv]
  | reg r => cases r <;> decide
  | invalid w => cases k <;> simp [Operand.fits] at h

/-- Every operand word is written back as it was (30_encoding.md R51). -/
theorem Operand.toCell_ofCell (v : Cell) : (Operand.ofCell v).toCell = v := by
  unfold Operand.ofCell
  split
  · rename_i hv
    apply BitVec.eq_of_toNat_eq
    simp [Operand.toCell]
    omega
  · rename_i hv
    split
    · rename_i r hr
      have hlt := v.isLt
      apply BitVec.eq_of_toNat_eq
      simp [Operand.toCell, Reg.index_of_ofIndex hr]
      omega
    · rfl

/-- An instruction's opcode word fixes its number of operand words (30_encoding.md R58). -/
theorem Instr.arityOf_opcode (i : Instr) : arityOf i.opcode = some i.arity := by
  cases i <;> rfl

theorem Instr.opcode_lt (i : Instr) : i.opcode < 22 := by cases i <;> simp [Instr.opcode]

@[simp] theorem Instr.encode_length (i : Instr) : i.encode.length = 1 + i.arity := by
  simp [Instr.encode, Instr.arity, Nat.add_comm]

/-- A decoded one-operand instruction took one word. -/
theorem decode1_ok {make : Operand → Instr} {ws rest : List Cell} {i : Instr}
    (h : decode1 make ws = .ok (i, rest)) : ∃ a, ws = a :: rest ∧ i = make (.ofCell a) := by
  unfold decode1 at h
  split at h <;> simp_all

/-- A decoded two-operand instruction took two words. -/
theorem decode2_ok {make : Operand → Operand → Instr} {ws rest : List Cell} {i : Instr}
    (h : decode2 make ws = .ok (i, rest)) :
    ∃ a b, ws = a :: b :: rest ∧ i = make (.ofCell a) (.ofCell b) := by
  unfold decode2 at h
  split at h <;> simp_all

/-- A decoded three-operand instruction took three words. -/
theorem decode3_ok {make : Operand → Operand → Operand → Instr} {ws rest : List Cell} {i : Instr}
    (h : decode3 make ws = .ok (i, rest)) :
    ∃ a b c, ws = a :: b :: c :: rest ∧ i = make (.ofCell a) (.ofCell b) (.ofCell c) := by
  unfold decode3 at h
  split at h <;> simp_all

end Sys2Proof
end

