-- ==== Sys2Proof/Laws/Exec.lean ====
section
/-! SUPPORT. What executing an instruction can do, said once for all 22: `Effect` lists the ways an
instruction can end, and `effect_of_exec` says there is no other. -/

namespace Sys2Proof.Machine

/-- `Effect s i t`: instruction `i` takes state `s` to state `t`. -/
inductive Effect (s : State) : Instr → State → Prop where
  /-- A slot fails its check (30_encoding.md R54). -/
  | illegal {i : Instr} (h : i.wellFormed = false) : Effect s i (s.raise .invalidOperand)
  /-- set, eq, gt, add, mult, mod, and, or, not and rmem write one register. -/
  | compute {i : Instr} {r : Reg} (v : Word) (hd : (Operand.reg r, SlotKind.dest) ∈ i.slots)
      (hop : i.opcode ∈ [1, 4, 5, 9, 10, 11, 12, 13, 14, 15]) :
      Effect s i ((s.writeReg r v).advance i.arity)
  /-- noop, and jt and jf not taken. -/
  | goOn {i : Instr} (hop : i.opcode ∈ [7, 8, 21]) : Effect s i (s.advance i.arity)
  /-- jmp, and jt and jf taken. -/
  | jump {i : Instr} (t : Word) (hop : i.opcode ∈ [6, 7, 8]) : Effect s i (s.jump (t.setWidth 16))
  | push {a : Operand} {v : Word} (ha : s.resolve a = some v) (hroom : s.stackFull = false) :
      Effect s (.push a) (State.advance { s with stack := v.setWidth 16 :: s.stack } 1)
  | pushFull {a : Operand} (hfull : s.stackFull = true) : Effect s (.push a) (s.raise .stackOverflow)
  | pop {r : Reg} {e : Cell} {rest : List Cell} (hs : s.stack = e :: rest) :
      Effect s (.pop (.reg r)) ((State.writeReg { s with stack := rest } r e).advance 1)
  | popEmpty {r : Reg} (hs : s.stack = []) : Effect s (.pop (.reg r)) (s.raise .stackUnderflow)
  | divideByZero {a b c : Operand} (hc : s.resolve c = some 0#15) :
      Effect s (.mod a b c) (s.raise .divideByZero)
  | rmemOutside {a b : Operand} {addr : Word} (hb : s.resolve b = some addr)
      (hout : s.memSize ≤ addr.toNat) : Effect s (.rmem a b) (s.raise .memoryOutOfBounds)
  | wmem {a b : Operand} {addr v : Word} (ha : s.resolve a = some addr) (hb : s.resolve b = some v)
      (hin : addr.toNat < s.memSize) :
      Effect s (.wmem a b) ((s.memWrite addr.toNat (v.setWidth 16)).advance 2)
  | wmemOutside {a b : Operand} {addr : Word} (ha : s.resolve a = some addr)
      (hout : s.memSize ≤ addr.toNat) : Effect s (.wmem a b) (s.raise .memoryOutOfBounds)
  | call {a : Operand} {v : Word} (ha : s.resolve a = some v) (hroom : s.stackFull = false) :
      Effect s (.call a) (State.jump { s with stack := (s.pc + 2#16) :: s.stack } (v.setWidth 16))
  | callFull {a : Operand} (hfull : s.stackFull = true) : Effect s (.call a) (s.raise .stackOverflow)
  | ret {t : Cell} {rest : List Cell} (hs : s.stack = t :: rest) :
      Effect s .ret (State.jump { s with stack := rest } t)
  | retEmpty (hs : s.stack = []) : Effect s .ret s.haltRun
  | halt : Effect s .halt s.haltRun
  | out {a : Operand} {v : Word} (ha : s.resolve a = some v) :
      Effect s (.out a) ((s.emit v).advance 1)
  | wait {r : Reg} (hl : s.latch = none) : Effect s (.in_ (.reg r)) (s.wait (.in_ (.reg r)))
  | poll {r : Reg} (hl : s.latch ≠ none) (ho : s.offered = none) :
      Effect s (.in_ (.reg r)) { s with polls := s.polls + 1 }
  | receive {r : Reg} {l : Latch} {c : Word} (hl : s.latch = some l) (ho : s.offered = some c) :
      Effect s (.in_ (.reg r)) { (s.polled.writeReg r (normalizeInput c)) with
        pc := l.ia + 2#16, latch := none, events := s.events ++ [.in_ c] }

theorem illegal_of_dest {i : Instr} {o : Operand} (hm : (o, SlotKind.dest) ∈ i.slots)
    (h : regidx o = none) : i.wellFormed = false := by
  have hf : o.fits .dest = false := by rw [← regidx_isSome, h]; rfl
  exact List.all_eq_false.2 ⟨_, hm, by simp [hf]⟩

theorem illegal_of_value {i : Instr} {o : Operand} {s : State}
    (hm : (o, SlotKind.value) ∈ i.slots) (h : s.resolve o = none) : i.wellFormed = false := by
  have hf : o.fits .value = false := by rw [← s.resolve_isSome, h]; rfl
  exact List.all_eq_false.2 ⟨_, hm, by simp [hf]⟩

theorem effect_unary {i : Instr} {a b : Operand} {s : State} (f : Word → Word)
    (hi : i.slots = [(a, .dest), (b, .value)])
    (hop : i.opcode ∈ [1, 4, 5, 9, 10, 11, 12, 13, 14, 15]) : Effect s i (s.unary a b f) := by
  rcases s.unary_cases a b f with ⟨h, e⟩ | ⟨r, vb, rfl, -, e⟩ <;> rw [e]
  · refine .illegal ?_
    rcases h with h | h
    · exact illegal_of_dest (by simp [hi]) h
    · exact illegal_of_value (by simp [hi]) h
  · have := Effect.compute (s := s) (i := i) (r := r) (f vb) (by simp [hi]) hop
    simpa [Instr.arity, hi] using this

theorem effect_binary {i : Instr} {a b c : Operand} {s : State} (f : Word → Word → Word)
    (hi : i.slots = [(a, .dest), (b, .value), (c, .value)])
    (hop : i.opcode ∈ [1, 4, 5, 9, 10, 11, 12, 13, 14, 15]) : Effect s i (s.binary a b c f) := by
  rcases s.binary_cases a b c f with ⟨h, e⟩ | ⟨r, vb, vc, rfl, -, -, e⟩ <;> rw [e]
  · refine .illegal ?_
    rcases h with h | h | h
    · exact illegal_of_dest (by simp [hi]) h
    · exact illegal_of_value (by simp [hi]) h
    · exact illegal_of_value (by simp [hi]) h
  · have := Effect.compute (s := s) (i := i) (r := r) (f vb vc) (by simp [hi]) hop
    simpa [Instr.arity, hi] using this

theorem effect_withValue {i : Instr} {o : Operand} {s : State} {k : Word → State}
    (hm : (o, SlotKind.value) ∈ i.slots) (hk : ∀ v, s.resolve o = some v → Effect s i (k v)) :
    Effect s i (s.withValue o k) := by
  rcases s.withValue_cases o k with ⟨h, e⟩ | ⟨v, h, e⟩ <;> rw [e]
  · exact .illegal (illegal_of_value hm h)
  · exact hk v h

theorem effect_withDest {i : Instr} {o : Operand} {s : State} {k : Reg → State}
    (hm : (o, SlotKind.dest) ∈ i.slots) (hk : ∀ r, o = .reg r → Effect s i (k r)) :
    Effect s i (s.withDest o k) := by
  rcases s.withDest_cases o k with ⟨h, e⟩ | ⟨r, h, e⟩ <;> rw [e]
  · exact .illegal (illegal_of_dest hm h)
  · exact hk r h

theorem effect_rmem (a b : Operand) (s : State) {t : State} (h : execRmem a b s = .next t) :
    Effect s (.rmem a b) t := by
  cases h
  refine effect_withDest (by simp [Instr.slots]) fun r hr => ?_
  refine effect_withValue (by simp [Instr.slots]) fun addr hb => ?_
  subst hr
  rcases Nat.lt_or_ge addr.toNat s.memSize with hin | hout
  · rw [State.readingCell_inside hin]
    exact .compute (i := .rmem (.reg r) b) ((s.memRead addr.toNat).setWidth 15)
      (by simp [Instr.slots]) (by simp [Instr.opcode])
  · rw [State.readingCell_outside hout]; exact .rmemOutside hb hout

theorem effect_wmem (a b : Operand) (s : State) {t : State} (h : execWmem a b s = .next t) :
    Effect s (.wmem a b) t := by
  cases h
  refine effect_withValue (by simp [Instr.slots]) fun addr ha => ?_
  refine effect_withValue (by simp [Instr.slots]) fun v hb => ?_
  rcases Nat.lt_or_ge addr.toNat s.memSize with hin | hout
  · rw [State.writingCell_inside hin]; exact .wmem ha hb hin
  · rw [State.writingCell_outside hout]; exact .wmemOutside ha hout

theorem effect_mod (a b c : Operand) (s : State) {t : State} (h : execMod a b c s = .next t) :
    Effect s (.mod a b c) t := by
  cases h
  refine effect_withDest (by simp [Instr.slots]) fun r hr => ?_
  refine effect_withValue (by simp [Instr.slots]) fun vb _ => ?_
  refine effect_withValue (by simp [Instr.slots]) fun vc hc => ?_
  subst hr
  split
  · rename_i h0; subst h0; exact .divideByZero hc
  · exact .compute (i := .mod (.reg r) b c) _ (by simp [Instr.slots]) (by simp [Instr.opcode])

theorem effect_stack (i : Instr) (s : State) {t : State} (h : exec i s = .next t)
    (hi : i.opcode ∈ [2, 3, 17, 18]) : Effect s i t := by
  cases i <;> simp [Instr.opcode] at hi
  case push a =>
    cases h
    refine effect_withValue (by simp [Instr.slots]) fun v ha => ?_
    cases hf : s.stackFull with
    | true => rw [State.pushing_full hf]; exact .pushFull hf
    | false => rw [State.pushing_room hf]; exact .push ha hf
  case pop a =>
    cases h
    refine effect_withDest (by simp [Instr.slots]) fun r hr => ?_
    subst hr
    cases hs : s.stack with
    | nil => rw [State.popping_empty hs]; exact .popEmpty hs
    | cons e rest => rw [State.popping_cons hs]; exact .pop hs
  case call a =>
    cases h
    refine effect_withValue (by simp [Instr.slots]) fun v ha => ?_
    cases hf : s.stackFull with
    | true => rw [State.pushing_full hf]; exact .callFull hf
    | false => rw [State.pushing_room hf]; exact .call ha hf
  case ret =>
    cases h
    cases hs : s.stack with
    | nil => rw [State.popping_empty hs]; exact .retEmpty hs
    | cons e rest => rw [State.popping_cons hs]; exact .ret hs

theorem effect_in (a : Operand) (s : State) {t : State} (h : execIn a s = .next t) :
    Effect s (.in_ a) t := by
  cases h
  refine effect_withDest (by simp [Instr.slots]) fun r hr => ?_
  subst hr
  cases hl : s.latch with
  | none => exact .wait hl
  | some l =>
    rcases s.receiving_cases l.ia r with ⟨ho, e⟩ | ⟨c, ho, e⟩ <;> simp only [e]
    · exact .poll (by simp [hl]) ho
    · exact .receive hl ho

theorem effect_jumps (i : Instr) (s : State) {t : State} (h : exec i s = .next t)
    (hi : i.opcode ∈ [6, 7, 8]) : Effect s i t := by
  cases i <;> simp [Instr.opcode] at hi
  case jmp a =>
    cases h
    exact effect_withValue (by simp [Instr.slots]) fun v _ => .jump v (by simp [Instr.opcode])
  all_goals
    cases h
    refine effect_withValue (by simp [Instr.slots]) fun va _ => ?_
    refine effect_withValue (by simp [Instr.slots]) fun vt _ => ?_
    split
  · exact .jump vt (by simp [Instr.opcode])
  · exact .goOn (i := .jt _ _) (by simp [Instr.opcode])
  · exact .goOn (i := .jf _ _) (by simp [Instr.opcode])
  · exact .jump vt (by simp [Instr.opcode])

/-- Executing an instruction has one of the effects listed, and no other. -/
theorem effect_of_exec {i : Instr} {s t : State} (h : exec i s = .next t) : Effect s i t := by
  cases i with
  | halt => cases h; exact .halt
  | set a b => cases h; exact effect_unary _ rfl (by simp [Instr.opcode])
  | push a => exact effect_stack _ s h (by simp [Instr.opcode])
  | pop a => exact effect_stack _ s h (by simp [Instr.opcode])
  | eq a b c => cases h; exact effect_binary _ rfl (by simp [Instr.opcode])
  | gt a b c => cases h; exact effect_binary _ rfl (by simp [Instr.opcode])
  | jmp a => exact effect_jumps _ s h (by simp [Instr.opcode])
  | jt a b => exact effect_jumps _ s h (by simp [Instr.opcode])
  | jf a b => exact effect_jumps _ s h (by simp [Instr.opcode])
  | add a b c => cases h; exact effect_binary _ rfl (by simp [Instr.opcode])
  | mult a b c => cases h; exact effect_binary _ rfl (by simp [Instr.opcode])
  | mod a b c => exact effect_mod a b c s h
  | and a b c => cases h; exact effect_binary _ rfl (by simp [Instr.opcode])
  | or a b c => cases h; exact effect_binary _ rfl (by simp [Instr.opcode])
  | not a b => cases h; exact effect_unary _ rfl (by simp [Instr.opcode])
  | rmem a b => exact effect_rmem a b s h
  | wmem a b => exact effect_wmem a b s h
  | call a => exact effect_stack _ s h (by simp [Instr.opcode])
  | ret => exact effect_stack _ s h (by simp [Instr.opcode])
  | out a => cases h; exact effect_withValue (by simp [Instr.slots]) fun v ha => .out ha
  | in_ a => exact effect_in a s h
  | noop => cases h; exact .goOn (i := .noop) (by simp [Instr.opcode])

end Sys2Proof.Machine
end

