-- ==== Sys2Proof/Laws/PerInstr.lean ====
section
/-! SUPPORT. Facts about every instruction as syntax, one lemma per constructor. Family
`EncodedShape`: the words of an instruction begin with its opcode word and go on with as many operand
words as that opcode asks for (30_encoding.md R48, R58). -/

namespace Sys2Proof.Laws.EncodedShape

/-- The first word is the opcode, and the number of words after it is ARITY of that opcode. -/
def Statement (i : Instr) : Prop :=
  ∃ op rest, i.encode = op :: rest ∧ op.toNat = i.opcode ∧ arityOf op.toNat = some rest.length

theorem halt : Statement .halt := ⟨_, _, rfl, rfl, rfl⟩
theorem set (a b : Operand) : Statement (.set a b) := ⟨_, _, rfl, rfl, rfl⟩
theorem push (a : Operand) : Statement (.push a) := ⟨_, _, rfl, rfl, rfl⟩
theorem pop (a : Operand) : Statement (.pop a) := ⟨_, _, rfl, rfl, rfl⟩
theorem eq (a b c : Operand) : Statement (.eq a b c) := ⟨_, _, rfl, rfl, rfl⟩
theorem gt (a b c : Operand) : Statement (.gt a b c) := ⟨_, _, rfl, rfl, rfl⟩
theorem jmp (a : Operand) : Statement (.jmp a) := ⟨_, _, rfl, rfl, rfl⟩
theorem jt (a b : Operand) : Statement (.jt a b) := ⟨_, _, rfl, rfl, rfl⟩
theorem jf (a b : Operand) : Statement (.jf a b) := ⟨_, _, rfl, rfl, rfl⟩
theorem add (a b c : Operand) : Statement (.add a b c) := ⟨_, _, rfl, rfl, rfl⟩
theorem mult (a b c : Operand) : Statement (.mult a b c) := ⟨_, _, rfl, rfl, rfl⟩
theorem mod (a b c : Operand) : Statement (.mod a b c) := ⟨_, _, rfl, rfl, rfl⟩
theorem and (a b c : Operand) : Statement (.and a b c) := ⟨_, _, rfl, rfl, rfl⟩
theorem or (a b c : Operand) : Statement (.or a b c) := ⟨_, _, rfl, rfl, rfl⟩
theorem not (a b : Operand) : Statement (.not a b) := ⟨_, _, rfl, rfl, rfl⟩
theorem rmem (a b : Operand) : Statement (.rmem a b) := ⟨_, _, rfl, rfl, rfl⟩
theorem wmem (a b : Operand) : Statement (.wmem a b) := ⟨_, _, rfl, rfl, rfl⟩
theorem call (a : Operand) : Statement (.call a) := ⟨_, _, rfl, rfl, rfl⟩
theorem ret : Statement .ret := ⟨_, _, rfl, rfl, rfl⟩
theorem out (a : Operand) : Statement (.out a) := ⟨_, _, rfl, rfl, rfl⟩
theorem in_ (a : Operand) : Statement (.in_ a) := ⟨_, _, rfl, rfl, rfl⟩
theorem noop : Statement .noop := ⟨_, _, rfl, rfl, rfl⟩

end Sys2Proof.Laws.EncodedShape
end

