-- ==== Sys2Proof/Tests/Slice0.lean ====
section
/-! SUPPORT. The model's own tests. Expected results are the spec's: the number of the vector or
example of 95_test_vectors.md, or the rule, stands before each. Then one witness for each statement
with hypotheses: a concrete state and operands that meet them. -/

namespace Sys2Proof.Machine.Tests

open Sys2Proof Sys2Proof.Machine

/-! ## Helpers -/

/-- The next state of an outcome. -/
def nextOf : Result → Option State
  | .next t => some t
  | _ => none

/-- The state right after RESET with an image and MEM_SIZE = its length (95_test_vectors.md). -/
def demo (ws : List Cell) : State :=
  { State.reset with
    mem := Memory.ofCells 0 ws
    params := { memSize := ⟨min ws.length 32768, by omega⟩, stackCapacity := none } }

/-- One step from an image, looked at through `f`. -/
def after {α : Type} (ws : List Cell) (f : State → α) : Option α := (nextOf (step (demo ws))).map f

/-- One step from a state, looked at through `f`. -/
def afterFrom {α : Type} (s : State) (f : State → α) : Option α := (nextOf (step s)).map f

theorem demo_inv (ws : List Cell) (h : ws.length ≤ 32768) : (demo ws).Inv where
  mem_wf := Memory.ofCells_wf 0 ws
  mem_bound p hp := by
    have := (Memory.mem_ofCells hp).2.1
    simp only [demo, State.memSize]
    omega
  pc_le := by simp [demo]
  stack_le := by simp [demo]
  stack_capacity := by simp [demo]
  fault_kind := by simp [demo]
  fault_pc := by simp [demo]
  wait_running := by simp [demo]
  latch_in := by simp [demo]

/-- `demo` with a stack within its capacity. -/
theorem demo_stack_inv (ws st : List Cell) (cap : Option Nat) (h : ws.length ≤ 32768)
    (hs : ∀ e ∈ st, e.toNat ≤ 32768) (hc : ∀ n, cap = some n → st.length ≤ n) :
    State.Inv { demo ws with
      stack := st, params := { (demo ws).params with stackCapacity := cap } } :=
  { demo_inv ws h with
    mem_bound := (demo_inv ws h).mem_bound
    stack_le := hs
    stack_capacity := hc
    latch_in := by simp [demo] }

/-- A CORE waiting in `in r0` at address 0. -/
def waiting : State := { demo [20, 32768, 0] with latch := some ⟨0, .in_ (.reg .r0)⟩ }

theorem waiting_inv : waiting.Inv :=
  { demo_inv [20, 32768, 0] (by decide) with
    mem_bound := (demo_inv [20, 32768, 0] (by decide)).mem_bound
    wait_running := fun _ => rfl
    latch_in := by
      intro l hl
      cases hl
      exact ⟨rfl, ⟨.r0, rfl⟩, by decide⟩ }

/-! ## WellFormed: each check refuses an ill-formed term (30_encoding.md R54, R57) -/

theorem test_illFormed_literal_dest : (Instr.set (.lit 5) (.lit 1)).wellFormed = false := by decide
theorem test_illFormed_invalid_dest : (Instr.pop (.invalid 40000)).wellFormed = false := by decide
theorem test_illFormed_invalid_value : (Instr.jt (.lit 0) (.invalid 32776)).wellFormed = false := by
  decide
theorem test_wellFormed_add : (Instr.add (.reg .r0) (.reg .r1) (.lit 4)).wellFormed = true := by
  decide

/-! ## Decoding, on words written out from 30_encoding.md R51, R55 -/

theorem test_decode_data :
    decode [1, 32771, 77] = .ok (.set (.reg .r3) (.lit 77), []) ∧
    decode [2, 32767] = .ok (.push (.lit 32767), []) ∧
    decode [3, 32771] = .ok (.pop (.reg .r3), []) ∧
    decode [15, 32770, 19] = .ok (.rmem (.reg .r2) (.lit 19), []) ∧
    decode [16, 19, 32768] = .ok (.wmem (.lit 19) (.reg .r0), []) := ⟨rfl, rfl, rfl, rfl, rfl⟩

theorem test_decode_arithmetic :
    decode [4, 32769, 32772, 0] = .ok (.eq (.reg .r1) (.reg .r4) (.lit 0), []) ∧
    decode [5, 32775, 32774, 32773] = .ok (.gt (.reg .r7) (.reg .r6) (.reg .r5), []) ∧
    decode [9, 32768, 32769, 4] = .ok (.add (.reg .r0) (.reg .r1) (.lit 4), []) ∧
    decode [10, 32768, 32768, 32768] = .ok (.mult (.reg .r0) (.reg .r0) (.reg .r0), []) ∧
    decode [11, 32770, 32767, 10] = .ok (.mod (.reg .r2) (.lit 32767) (.lit 10), []) ∧
    decode [12, 32773, 32767, 21845] = .ok (.and (.reg .r5) (.lit 32767) (.lit 21845), []) ∧
    decode [13, 32774, 32773, 10922] = .ok (.or (.reg .r6) (.reg .r5) (.lit 10922), []) ∧
    decode [14, 32772, 32771] = .ok (.not (.reg .r4) (.reg .r3), []) :=
  ⟨rfl, rfl, rfl, rfl, rfl, rfl, rfl, rfl⟩

theorem test_decode_control :
    decode [6, 12] = .ok (.jmp (.lit 12), []) ∧
    decode [7, 32768, 3] = .ok (.jt (.reg .r0) (.lit 3), []) ∧
    decode [8, 32768, 20] = .ok (.jf (.reg .r0) (.lit 20), []) ∧
    decode [17, 12] = .ok (.call (.lit 12), []) ∧
    decode [18] = .ok (.ret, []) := ⟨rfl, rfl, rfl, rfl, rfl⟩

theorem test_decode_system :
    decode [0] = .ok (.halt, []) ∧ decode [19, 32768] = .ok (.out (.reg .r0), []) ∧
    decode [20, 32769] = .ok (.in_ (.reg .r1), []) ∧ decode [21] = .ok (.noop, []) :=
  ⟨rfl, rfl, rfl, rfl⟩

/-- Opcode words past the table, a register reference among them, and missing words (R50, R58). -/
theorem test_decode_refuses :
    decode [22] = .error .invalidOpcode ∧ decode [65535, 1, 2, 3] = .error .invalidOpcode ∧
    decode [32768] = .error .invalidOpcode ∧ decode [9, 32768, 32769] = .error .truncated ∧
    decode [] = .error .truncated := ⟨rfl, rfl, rfl, rfl, rfl⟩

/-- Bits 31..16 are the second word; the bits above `nbits` are 0. -/
theorem test_decodeTableWord :
    decodeTableWord 64 (9 + 32768 * 2 ^ 16 + 32769 * 2 ^ 32 + 4 * 2 ^ 48) =
      some (.add (.reg .r0) (.reg .r1) (.lit 4)) ∧
    decodeTableWord 16 (6 + 7 * 2 ^ 16) = some (.jmp (.lit 0)) ∧
    decodeTableWord 16 22 = none := by decide

theorem test_withFetchWord :
    afterFrom (State.reset.withFetchWord 64 (9 + 32768 * 2 ^ 16 + 32769 * 2 ^ 32 + 4 * 2 ^ 48))
      (fun t => (t.readReg .r0, t.pc, t.memSize)) = some (4, 4, 4) := by decide

/-- 20_memory.md R37. -/
theorem test_imageOfBytes :
    imageOfBytes [9, 0, 0, 128] = some [9, 32768] ∧ imageOfBytes [9, 0, 0] = none := by decide

/-! ## Loading -/

/-- 10_state.md R24, with MEM_SIZE = 4 and PAD(a) = 22 (as in V9). -/
theorem test_resetPort_pads :
    (State.reset.resetPort { image := [21], memSize := 4, pad := fun _ => 22 }).map
      (fun t => (t.memRead 0, t.memRead 1, t.memRead 3, t.memSize)) = some (21, 22, 22, 4) := by
  decide

/-- 70_reset_and_hazards.md R120: MEM_SIZE shorter than the image, or above 32768. -/
theorem test_resetPort_refuses :
    (State.reset.resetPort { image := [21, 0], memSize := 1, pad := fun _ => 0 }).isSome = false ∧
    (State.reset.resetPort { image := [], memSize := 32769, pad := fun _ => 0 }).isSome = false := by
  decide

theorem test_loadImage_is_demo : loadImage [9, 32768, 32769, 4, 19, 32768] =
    some (demo [9, 32768, 32769, 4, 19, 32768]) := by decide

/-! ## Fetch and decode: what a fault leaves is STATUS, FAULT_PC and pc -/

/-- STATUS, FAULT_PC and pc. -/
def outcome (t : State) : Cell × Cell × Cell := (t.status, t.faultPc, t.pc)

/-- V1, V2, V4, V5, V6: STATUS is 42 for MemoryOutOfBounds and 34 for InvalidOpcode. -/
theorem test_fetch_faults :
    after [] outcome = some (42, 0, 0) ∧ after [22] outcome = some (34, 0, 0) ∧
    after [32768] outcome = some (34, 0, 0) ∧ after [9, 32768, 32769] outcome = some (42, 0, 0) ∧
    after [9, 40000] outcome = some (42, 0, 0) := by decide

/-- E8: InvalidOperand in slot c, before the divisor is looked at. -/
theorem test_fetch_slot_order : after [11, 32768, 32769, 32776, 0] outcome = some (10, 0, 0) := by
  decide

/-- 40_execution_engine.md R71. -/
theorem test_halted_takes_no_step :
    nextOf (step { demo [21] with runState := .halted }) = none := by decide

/-! ## Data movement -/

/-- V11. -/
theorem test_set : after [1, 32771, 77, 0] (fun t => (t.readReg .r3, t.pc)) = some (77, 3) := by
  decide

/-- V12. -/
theorem test_set_literal_dest :
    after [1, 5, 1, 0] (fun t => (outcome t, t.regs)) = some ((10, 0, 0), RegFile.zero) := by decide

/-- V13. -/
theorem test_push : after [2, 32767, 3, 32771, 0] (fun t => (t.stack, t.pc)) = some ([32767], 2) := by
  decide

/-- V22, at its second instruction. -/
theorem test_push_full :
    afterFrom { demo [2, 1, 2, 2, 0] with
        pc := 2, stack := [1], params := ⟨⟨5, by decide⟩, some 1⟩ }
      (fun t => (outcome t, t.stack)) = some ((50, 2, 2), [1]) := by decide

/-- E7. -/
theorem test_pop_empty : after [3, 32768] outcome = some (18, 0, 0) := by decide

/-- V49: 32768 popped into a register is 0; R79's example: the top is taken, the rest stays. -/
theorem test_pop_reduces :
    afterFrom { demo [3, 32768] with stack := [32768, 5], regs := ⟨9, 0, 0, 0, 0, 0, 0, 0⟩ }
      (fun t => (t.readReg .r0, t.stack, t.pc)) = some (0, [5], 2) := by decide

/-- V17. -/
theorem test_rmem_reduces :
    after [15, 32768, 4, 0, 65535] (fun t => (t.readReg .r0, t.pc)) = some (32767, 3) := by decide

/-- V18. -/
theorem test_rmem_outside : after [15, 32768, 4, 0] outcome = some (42, 0, 0) := by decide

/-- V19: the instruction overwrites its own word and still uses the operands it latched. -/
theorem test_wmem_own_word :
    after [16, 1, 7, 0] (fun t => (t.memRead 0, t.memRead 1, t.memRead 2, t.pc)) =
      some (16, 7, 7, 3) := by decide

/-- V20. -/
theorem test_wmem_outside :
    after [16, 4, 1, 0] (fun t => (outcome t, t.mem)) = some ((42, 0, 0), (demo [16, 4, 1, 0]).mem) := by
  decide

/-! ## Comparison, arithmetic and logic -/

/-- E4. -/
theorem test_eq :
    after [4, 32768, 5, 5] (fun t => t.readReg .r0) = some 1 ∧
    after [4, 32769, 5, 6] (fun t => t.readReg .r1) = some 0 := by decide

/-- V40 and E4: unsigned and strict. -/
theorem test_gt :
    after [5, 32768, 32767, 32766] (fun t => t.readReg .r0) = some 1 ∧
    after [5, 32770, 7, 7] (fun t => t.readReg .r2) = some 0 := by decide

/-- E2 and R84's example. -/
theorem test_add_wraps :
    after [9, 32768, 32767, 1] (fun t => (t.readReg .r0, t.pc)) = some (0, 4) ∧
    after [9, 32768, 32769, 4] (fun t => t.readReg .r0) = some 4 := by decide

/-- V25, at its second instruction: the sources are read before the write. -/
theorem test_add_source_is_dest :
    afterFrom { demo [9, 32768, 32768, 32768] with regs := ⟨16384, 0, 0, 0, 0, 0, 0, 0⟩ }
      (fun t => t.readReg .r0) = some 0 := by decide

/-- V26, V27. -/
theorem test_mult :
    after [10, 32768, 200, 200] (fun t => t.readReg .r0) = some 7232 ∧
    after [10, 32768, 32767, 32767] (fun t => t.readReg .r0) = some 1 := by decide

/-- V29. -/
theorem test_mod : after [11, 32768, 32767, 10] (fun t => t.readReg .r0) = some 7 := by decide

/-- V31: a divisor read from a register that holds 0. -/
theorem test_mod_by_zero : after [11, 32768, 5, 32769, 0] outcome = some (26, 0, 0) := by decide

/-- V33. -/
theorem test_and : after [12, 32768, 21845, 10922] (fun t => t.readReg .r0) = some 0 := by decide

/-- V35. -/
theorem test_or : after [13, 32768, 21845, 10922] (fun t => t.readReg .r0) = some 32767 := by decide

/-- V36, V37. -/
theorem test_not :
    after [14, 32768, 0] (fun t => (t.readReg .r0, t.pc)) = some (32767, 3) ∧
    after [14, 32768, 21845] (fun t => t.readReg .r0) = some 10922 := by decide

/-! ## Control transfer -/

/-- V41: the target is not checked when the jump executes. -/
theorem test_jmp_unchecked : after [6, 100] outcome = some (0, 0, 100) := by decide

/-- E5. -/
theorem test_jt :
    after [7, 32768, 5, 0, 21, 0] (fun t => t.pc) = some 3 ∧ after [7, 1, 5] (fun t => t.pc) = some 5 :=
  by decide

/-- V42: the untaken target is still checked. -/
theorem test_jt_untaken_checked : after [7, 0, 40000, 0] outcome = some (10, 0, 0) := by decide

/-- E5. -/
theorem test_jf :
    after [8, 32768, 4, 0, 0] (fun t => t.pc) = some 4 ∧
    after [8, 32767, 4] (fun t => t.pc) = some 3 := by decide

/-- R93's example. -/
theorem test_call :
    afterFrom { demo [0, 0, 0, 17, 12] with pc := 3 } (fun t => (t.stack, t.pc)) = some ([5], 12) := by
  decide

/-- V48: the return address 32768 is pushed unreduced. -/
theorem test_call_top_of_memory :
    (nextOf (exec (.call (.lit 2)) { demo [] with pc := 32766 })).map (fun t => (t.stack, t.pc)) =
      some ([32768], 2) := by decide

/-- V45, at its second instruction, and V48: the popped target is used unreduced. -/
theorem test_ret :
    afterFrom { demo [18] with stack := [4] } (fun t => (t.stack, t.pc)) = some ([], 4) ∧
    afterFrom { demo [18] with stack := [32768] } (fun t => t.pc) = some 32768 := by decide

/-- E7: halted at 0, STATUS = 1. -/
theorem test_ret_empty : after [18] outcome = some (1, 0, 0) := by decide

/-! ## System and ports -/

/-- V50. -/
theorem test_halt : after [0] outcome = some (1, 0, 0) := by decide

/-- V51. -/
theorem test_noop : after [21, 0] outcome = some (0, 0, 1) := by decide

/-- V53: emitted unchanged. -/
theorem test_out : after [19, 200, 0] (fun t => (t.output, t.pc)) = some ([200], 2) := by decide

/-- V57, first step: waiting at 0, STATUS = 4; the trace port saw the decoded words. -/
theorem test_in_waits :
    after [20, 32768, 0] outcome = some (4, 0, 0) ∧
    (demo [20, 32768, 0]).trace = some (0, [20, 32768]) := by decide

/-- V54, V56, second transition. -/
theorem test_in_completes :
    afterFrom (waiting.deliver 13) (fun t => (t.readReg .r0, outcome t)) = some (10, 0, 0, 2) ∧
    afterFrom (waiting.deliver 65) (fun t => (t.readReg .r0, t.output)) = some (65, []) := by decide

/-- R114: RESET discards the wait, the character on offer and the character that arrives with it; the
second of two characters put at the port stays. -/
theorem test_reset_discards_character :
    (((waiting.deliver 65).deliver 66).resetPort { image := [21], memSize := 1, pad := fun _ => 0 }).map
      (fun t => (t.input, t.latch, t.readReg .r0)) = some ([66], none, 0) ∧
    ((demo [21]).instant (some { image := [21], memSize := 1, pad := fun _ => 0 }) (some 65)).map
      (fun o => (nextOf o).map State.input) = some (some []) := by decide

/-- R114, R70: without RESET the arriving character completes the wait. -/
theorem test_instant_delivers :
    (waiting.instant none (some 65)).map (fun o => (nextOf o).map fun t => t.readReg .r0) =
      some (some 65) := by decide

/-! ## Witnesses: states and operands that meet the hypotheses of each statement -/

theorem witness_DecodeOfEncodeIsIdentity :
    (Instr.add (.reg .r0) (.lit 32767) (.reg .r7)).wellFormed = true := by decide

theorem witness_EncodeOfDecodeIsIdentity :
    decode [6, 65535, 3] = .ok (.jmp (.invalid 65535), [3]) := rfl

/-- The opcodes at the ends of the table and just past it, with enough words and with too few. -/
theorem witness_OpcodeWordAloneFixesLength :
    arityOf (0 : Cell).toNat = some 0 ∧ 0 ≤ ([] : List Cell).length ∧
    arityOf (21 : Cell).toNat = some 0 ∧ arityOf (4 : Cell).toNat = some 3 ∧
    [(1 : Cell), 2].length < 3 ∧ 22 ≤ (22 : Cell).toNat := by decide

/-- The boundary words of the three classes. -/
theorem witness_OperandWordsHaveThreeClasses :
    (0 : Cell).toNat < 32768 ∧ (32767 : Cell).toNat < 32768 ∧
    (32768 ≤ (32768 : Cell).toNat ∧ (32768 : Cell).toNat < 32776) ∧
    (32768 ≤ (32775 : Cell).toNat ∧ (32775 : Cell).toNat < 32776) ∧
    32776 ≤ (32776 : Cell).toNat ∧ 32776 ≤ (65535 : Cell).toNat := by decide +kernel

theorem witness_ImageWordsAreLittleEndian :
    imageOfBytes [9, 0, 0, 128] = some [9, 32768] ∧ 1 < [(9 : Cell), 32768].length := by decide

theorem witness_RegisterWriteReducesModulo : Reg.r1 ≠ Reg.r0 := by decide

theorem witness_EqualMemoriesAreEqualData :
    Memory.wf [(0, 7), (3, 1)] ∧ ∀ a, Memory.read [(0, 7), (3, 1)] a = Memory.read [(0, 7), (3, 1)] a :=
  ⟨by decide, fun _ => rfl⟩

/-- An accepted load with image and padding, the largest MEM_SIZE, and the first one refused. -/
theorem witness_ResetPortLoadsImageAndPad :
    (State.reset.resetPort { image := [21], memSize := 2, pad := fun _ => 22 }).isSome = true ∧
    0 < [(21 : Cell)].length ∧ [(21 : Cell)].length ≤ 1 ∧
    (State.reset.resetPort { image := [], memSize := 32768, pad := fun _ => 22 }).isSome = true ∧
    (State.reset.resetPort { image := [], memSize := 32769, pad := fun _ => 22 }).isSome = false := by
  decide +kernel

/-- A step that is due, a waiting `in` with a character on offer, and one not waiting. -/
theorem witness_ResetWinsOverWhatItCoincidesWith :
    (∃ u, step (demo [21]) = .next u) ∧ waiting.Inv ∧ (waiting.deliver 65).Inv ∧
    (waiting.deliver 65).latch ≠ none ∧ (waiting.deliver 65).runState = .running ∧
    (waiting.deliver 65).offered = some 65 ∧ (waiting.deliver 65).input = 65 :: [] ∧
    (∃ u, step (waiting.deliver 65) = .next u) ∧ (demo [21]).latch = none ∧
    (∃ t, (waiting.deliver 65).resetPort { image := [21], memSize := 1, pad := fun _ => 0 } = some t) ∧
    ∃ t, (demo [21]).resetPort { image := [21], memSize := 1, pad := fun _ => 0 } = some t :=
  ⟨⟨_, rfl⟩, waiting_inv, { waiting_inv with }, by decide, rfl, rfl, rfl, ⟨_, rfl⟩, rfl, ⟨_, rfl⟩, _, rfl⟩

theorem witness_EveryLoadSatisfiesInvariant :
    loadImage [9, 32768, 32769, 4, 19, 32768] = some (demo [9, 32768, 32769, 4, 19, 32768]) :=
  test_loadImage_is_demo

theorem witness_EveryStepKeepsInvariant :
    (demo [21, 0]).Inv ∧ ∃ t, step (demo [21, 0]) = .next t := ⟨demo_inv _ (by decide), _, rfl⟩

theorem witness_EveryRunKeepsInvariant :
    (demo [21, 0]).Inv ∧ ∃ t, Sys2Proof.core.run 2 (demo [21, 0]) = .next t :=
  ⟨demo_inv _ (by decide), _, rfl⟩

/-- A fresh, a waiting and a faulted state. -/
theorem witness_StatusWordShowsRunState :
    (demo [0]).Inv ∧ (waiting.Inv ∧ waiting.status = 4) ∧
    ((demo [0]).raise .divideByZero).status.toNat / 8 % 8 ≠ 0 :=
  ⟨demo_inv _ (by decide), ⟨waiting_inv, rfl⟩, by decide⟩

theorem witness_StepRunsDecodedInstruction :
    ((demo [2, 5, 0]).runState = .running ∧ (demo [2, 5, 0]).latch = none ∧
      (Instr.push (.lit 5)).wellFormed = true ∧
      (demo [2, 5, 0]).pc.toNat + (Instr.push (.lit 5)).encode.length ≤ (demo [2, 5, 0]).memSize ∧
      ∀ k, k < (Instr.push (.lit 5)).encode.length →
        (demo [2, 5, 0]).memRead ((demo [2, 5, 0]).pc.toNat + k) =
          (Instr.push (.lit 5)).encode.getD k 0#16) ∧
    waiting.runState = .running ∧ ∃ l, waiting.latch = some l := by
  refine ⟨⟨rfl, rfl, rfl, by decide, ?_⟩, rfl, _, rfl⟩
  decide

/-- One image for each clause: V1, V2, V5, V52, V12. -/
theorem witness_FetchAndDecodeCheckInOrder :
    (demo []).memSize ≤ (demo []).pc.toNat ∧
    ((demo [22]).pc.toNat < (demo [22]).memSize ∧ 22 ≤ ((demo [22]).memRead 0).toNat) ∧
    (arityOf ((demo [9, 0, 0]).memRead 0).toNat = some 3 ∧ (demo [9, 0, 0]).memSize ≤ 0 + 3) ∧
    (arityOf ((demo [19, 65]).memRead 0).toNat = some 1 ∧ 0 + 1 < (demo [19, 65]).memSize) ∧
    (demo [1, 5, 1]).fetch.toOption = some (.set (.lit 5) (.lit 1)) := by decide

theorem witness_IllegalOperandRaisesInvalidOperand :
    (Instr.mod (.lit 5) (.lit 7) (.lit 0)).wellFormed = false := by decide

theorem witness_StoppedCoreTakesNoStep :
    (demo [0]).haltRun.runState = .halted ∧ ((demo [0]).raise .stackOverflow).runState = .faulted :=
  ⟨rfl, rfl⟩

theorem witness_FaultsArePrecise :
    ∃ t, step (demo [3, 32768]) = .next t ∧ t.runState = .faulted := ⟨_, rfl, rfl⟩

/-- `halt`, and `ret` with an empty stack. -/
theorem witness_CleanHaltsChangeOnlyRunState :
    ((demo [0]).Inv ∧ ∃ t, step (demo [0]) = .next t ∧ t.runState = .halted) ∧
    ((demo [18]).Inv ∧ ∃ t, step (demo [18]) = .next t ∧ t.runState = .halted) :=
  ⟨⟨demo_inv _ (by decide), _, rfl, rfl⟩, ⟨demo_inv _ (by decide), _, rfl, rfl⟩⟩

/-- A step from a state that meets the invariant raises the fault. -/
def Raises (s : State) (k : FaultKind) : Prop :=
  s.Inv ∧ ∃ t, step s = .next t ∧ t.runState = .faulted ∧ t.faultKind = some k

/-- One state for each fault kind, for MemoryOutOfBounds one for each of its causes. -/
theorem witness_EachFaultKindHasItsCause :
    Raises (demo [1, 5, 1]) .invalidOperand ∧ Raises (demo [3, 32768]) .stackUnderflow ∧
    Raises (demo [11, 32768, 5, 0]) .divideByZero ∧ Raises (demo [22]) .invalidOpcode ∧
    Raises (demo []) .memoryOutOfBounds ∧ Raises (demo [9, 0, 0]) .memoryOutOfBounds ∧
    Raises (demo [15, 32768, 3]) .memoryOutOfBounds ∧ Raises (demo [16, 3, 1]) .memoryOutOfBounds ∧
    Raises { demo [2, 1] with stack := [1], params := { (demo [2, 1]).params with
      stackCapacity := some 1 } } .stackOverflow ∧
    Raises { demo [17, 1] with stack := [], params := { (demo [17, 1]).params with
      stackCapacity := some 0 } } .stackOverflow :=
  ⟨⟨demo_inv _ (by decide), _, rfl, rfl, rfl⟩, ⟨demo_inv _ (by decide), _, rfl, rfl, rfl⟩,
   ⟨demo_inv _ (by decide), _, rfl, rfl, rfl⟩, ⟨demo_inv _ (by decide), _, rfl, rfl, rfl⟩,
   ⟨demo_inv _ (by decide), _, rfl, rfl, rfl⟩, ⟨demo_inv _ (by decide), _, rfl, rfl, rfl⟩,
   ⟨demo_inv _ (by decide), _, rfl, rfl, rfl⟩, ⟨demo_inv _ (by decide), _, rfl, rfl, rfl⟩,
   ⟨demo_stack_inv _ [1] (some 1) (by decide) (by simp) (by simp), _, rfl, rfl, rfl⟩,
   ⟨demo_stack_inv _ [] (some 0) (by decide) (by simp) (by simp), _, rfl, rfl, rfl⟩⟩

/-- The last instruction that fits: its default next is MEM_SIZE. -/
theorem witness_DefaultNextNeverPassesMemory :
    (demo [9, 32768, 1, 1]).fetch.toOption = some (.add (.reg .r0) (.lit 1) (.lit 1)) := by decide

/-- The two forms of a V slot, for every statement whose premises are that its V slots resolve: set,
eq, gt, add, mult, mod, and, or, not, jmp, jt, jf, out. -/
theorem witness_value_slots (s : State) :
    s.resolve (.lit 32767) = some 32767 ∧ s.resolve (.reg .r7) = some (s.readReg .r7) := ⟨rfl, rfl⟩

/-- `SetCopiesValue`, `ComparisonsWriteZeroOrOne`, `AddWritesSumModulo`, `MultWritesProductModulo`,
`BitwiseInstructionsWriteResult`, `OutEmitsWord`: a literal and a register, in one concrete state. -/
theorem witness_SetCopiesValue :
    State.reset.resolve (.lit 0) = some 0 ∧ State.reset.resolve (.reg .r0) = some 0 := ⟨rfl, rfl⟩
theorem witness_ComparisonsWriteZeroOrOne :
    State.reset.resolve (.lit 32767) = some 32767 ∧ State.reset.resolve (.reg .r6) = some 0 := ⟨rfl, rfl⟩
theorem witness_AddWritesSumModulo :
    State.reset.resolve (.lit 32767) = some 32767 ∧ State.reset.resolve (.lit 1) = some 1 := ⟨rfl, rfl⟩
theorem witness_MultWritesProductModulo :
    State.reset.resolve (.lit 200) = some 200 ∧ State.reset.resolve (.reg .r1) = some 0 := ⟨rfl, rfl⟩
theorem witness_BitwiseInstructionsWriteResult :
    State.reset.resolve (.lit 21845) = some 21845 ∧ State.reset.resolve (.reg .r2) = some 0 :=
  ⟨rfl, rfl⟩
theorem witness_OutEmitsWord : State.reset.resolve (.lit 200) = some 200 := rfl

/-- Room on an unbounded stack and on one short of its capacity by one entry; a full stack. -/
theorem witness_PushPutsValueOnTop :
    (demo [2, 1]).resolve (.lit 1) = some 1 ∧
    (demo [2, 1]).params.stackCapacity ≠ some (demo [2, 1]).stack.length ∧
    (some 1 : Option Nat) ≠ some ([] : List Cell).length ∧
    (some 1 : Option Nat) = some [(1 : Cell)].length := by decide

theorem witness_CallPushesReturnAddress :
    (demo [17, 1]).resolve (.lit 1) = some 1 ∧
    (demo [17, 1]).params.stackCapacity ≠ some (demo [17, 1]).stack.length ∧
    (some 0 : Option Nat) = some ([] : List Cell).length := by decide

theorem witness_PopTakesTopOfStack :
    ({ demo [3, 32768] with stack := [32768, 5] } : State).stack = 32768 :: [5] ∧
    (demo [3, 32768]).stack = [] := ⟨rfl, rfl⟩

/-- The last address inside memory and the first one outside. -/
theorem witness_RmemReadsCell :
    (demo [15, 32768, 2]).resolve (.lit 2) = some 2 ∧
    (2 : Word).toNat < (demo [15, 32768, 2]).memSize ∧
    (demo [15, 32768, 3]).memSize ≤ (3 : Word).toNat := by decide

theorem witness_WmemWritesOneCell :
    Memory.wf (demo [16, 2, 7]).mem ∧ (demo [16, 2, 7]).resolve (.lit 2) = some 2 ∧
    (demo [16, 2, 7]).resolve (.lit 7) = some 7 ∧
    (2 : Word).toNat < (demo [16, 2, 7]).memSize ∧
    (demo [16, 2, 7]).memSize ≤ (3 : Word).toNat := by decide

theorem witness_ModWritesRemainderOrFaults :
    State.reset.resolve (.lit 32767) = some 32767 ∧ State.reset.resolve (.lit 1) = some 1 ∧
    (1 : Word).toNat ≠ 0 ∧ State.reset.resolve (.reg .r1) = some 0 ∧ (0 : Word).toNat = 0 := by decide

theorem witness_ArithmeticUnitComputesModulo : (1 : Word).toNat ≠ 0 := by decide

theorem witness_ArithmeticUnitLaws :
    (10 : Word).toNat ≠ 0 ∧ (3 : Word).toNat < (10 : Word).toNat ∧ gt15 10 3 = 1 ∧
    (10 : Word).toNat ≤ (10 : Word).toNat := by decide

theorem witness_JmpGoesToTarget :
    (demo [6, 2]).resolve (.lit 2) = some 2 ∧ (demo [6, 2]).runState = .running ∧
    (demo [6, 2]).latch = none ∧ (demo [6, 2]).memSize ≤ (2 : Word).toNat := by decide

theorem witness_ConditionalJumpsAreComplementary :
    State.reset.resolve (.lit 1) = some 1 ∧ (1 : Word).toNat ≠ 0 ∧
    State.reset.resolve (.reg .r0) = some 0 ∧ (0 : Word).toNat = 0 := by decide

theorem witness_RetReturnsOrHalts :
    (demo [18]).stack = [] ∧ ({ demo [18] with stack := [1] } : State).stack = 1 :: [] ∧
    (demo [18]).runState = .running ∧ (demo [18]).latch = none ∧
    (demo [18]).memSize ≤ (1 : Cell).toNat ∧
    (demo [17, 4]).resolve (.lit 4) = some 4 ∧
    ∃ t, exec (.call (.lit 4)) (demo [17, 4]) = .next t ∧ t.runState ≠ .faulted :=
  ⟨rfl, rfl, rfl, rfl, by decide, rfl, _, rfl, by decide⟩

theorem witness_InWaitsThenStoresCharacter :
    (demo [20, 32768]).latch = none ∧ (∃ l, waiting.latch = some l) ∧
    (waiting.deliver 13).input = 13 :: [] ∧ waiting.input = [] := ⟨rfl, ⟨_, rfl⟩, rfl, rfl⟩

theorem witness_OutsideWaitInputPortIsInvisible : (demo [21]).latch = none := rfl

theorem witness_WaitingTimeDoesNotMatter :
    waiting.Inv ∧ waiting.latch ≠ none ∧ waiting.input = [] := ⟨waiting_inv, by decide, rfl⟩

/-- An instruction that completes, for the statements whose premise is that `exec` gives a next state:
one of each shape. -/
theorem witness_OnlyDestinationRegisterChanges :
    (∃ t, exec (.add (.reg .r0) (.lit 1) (.lit 1)) (demo []) = .next t) ∧
    (Operand.reg .r0, SlotKind.dest) ∈ (Instr.add (.reg .r0) (.lit 1) (.lit 1)).slots :=
  ⟨⟨_, rfl⟩, by decide⟩

theorem witness_OnlyFourInstructionsTouchStack :
    ∃ t, exec (.push (.lit 1)) (demo []) = .next t ∧ t.stack ≠ (demo []).stack :=
  ⟨_, rfl, by decide⟩

theorem witness_OnlyWmemChangesMemory :
    ∃ t, exec (.wmem (.lit 0) (.lit 7)) (demo [0]) = .next t ∧
      t.memRead 0 ≠ (demo [0]).memRead 0 := ⟨_, rfl, by decide⟩

theorem witness_OnlyFiveInstructionsJump :
    (∃ t, exec .noop (demo [21]) = .next t) ∧ (∀ l, (demo [21]).latch = some l → l.ia = (demo [21]).pc) ∧
    (∀ l, waiting.latch = some l → l.ia = waiting.pc) :=
  ⟨⟨_, rfl⟩, by simp [demo], by simp [waiting, demo]⟩

theorem witness_TransactionsAreCompletedOutAndIn :
    (∃ t, step (demo [19, 65]) = .next t ∧ t.events ≠ (demo [19, 65]).events) ∧
    (demo [19, 65]).runState = .running ∧ ∃ t, exec (.out (.lit 65)) (demo [19, 65]) = .next t :=
  ⟨⟨_, rfl, by decide⟩, rfl, _, rfl⟩

theorem witness_ParametersNeverChange : ∃ t, step (demo [21]) = .next t := ⟨_, rfl⟩

theorem witness_RegisterWritersFrame :
    (∃ a b, Instr.rmem (.reg .r0) (.lit 0) = .set a b ∨ Instr.rmem (.reg .r0) (.lit 0) = .not a b ∨
      Instr.rmem (.reg .r0) (.lit 0) = .rmem a b) ∧
    ∃ t, exec (.rmem (.reg .r0) (.lit 0)) (demo [7]) = .next t := ⟨⟨_, _, .inr (.inr rfl)⟩, _, rfl⟩

theorem witness_JumpNoopHaltFrame :
    (∃ t, exec (.jmp (.lit 0)) (demo []) = .next t) ∧ ∃ t, exec .halt (demo []) = .next t :=
  ⟨⟨_, rfl⟩, _, rfl⟩

theorem witness_StackInstructionsFrame :
    (∃ t, exec (.pop (.reg .r0)) (demo []) = .next t) ∧ ∃ t, exec .ret (demo []) = .next t :=
  ⟨⟨_, rfl⟩, _, rfl⟩

/-- The address slot resolves, and does not. -/
theorem witness_WmemFrame :
    (∃ t, exec (.wmem (.lit 0) (.lit 7)) (demo [0]) = .next t) ∧
    (demo [0]).resolve (.lit 0) = some 0 ∧
    (∃ t, exec (.wmem (.invalid 40000) (.lit 7)) (demo [0]) = .next t) ∧
    (demo [0]).resolve (.invalid 40000) = none := ⟨⟨_, rfl⟩, rfl, ⟨_, rfl⟩, rfl⟩

theorem witness_PortInstructionsFrame :
    (∃ t, exec (.out (.lit 65)) (demo []) = .next t) ∧ ∃ t, exec (.in_ (.reg .r0)) waiting = .next t :=
  ⟨⟨_, rfl⟩, _, rfl⟩

end Sys2Proof.Machine.Tests
end

section
/-! PROOFS. Family 00_scope: the register write of R8 and the parameters of R6. -/

namespace Sys2Proof.Machine

/-! ## A register write (00_scope.md R8) -/

/-- `BitVec.setWidth_eq_extractLsb'` without its bound on the width: both sides read zeros above a
narrow value. -/
theorem setWidth_eq_extractLsb'_zero {w : Nat} (n : Nat) (v : BitVec w) :
    v.setWidth n = v.extractLsb' 0 n :=
  BitVec.eq_of_toNat_eq (by simp)

/-- Settles O7: a register reads back the value narrowed to 15 bits, which is its residue. -/
theorem registerWriteReducesModulo : Obligations.RegisterWriteReducesModulo := by
  intro s r q w v
  refine ⟨?residue, ?lowBits, s.readReg_writeReg_other v⟩
  case residue => rw [State.readReg_writeReg_self, BitVec.toNat_setWidth]
  case lowBits => rw [State.readReg_writeReg_self, setWidth_eq_extractLsb'_zero]

/-! ## The parameters (00_scope.md R6) -/

/-- Of all effects only the receiving `in` goes through an update that is not a plain record update:
it takes its character from the polled port. -/
theorem Effect.params {s t : State} {i : Instr} (h : Effect s i t) : t.params = s.params := by
  cases h with
  | receive => exact s.polled_params
  | _ => rfl

theorem exec_params {i : Instr} {s t : State} (h : exec i s = .next t) : t.params = s.params :=
  (effect_of_exec h).params

/-- Settles O52: a step executes an instruction, latched or fetched, or raises a fetch fault. -/
theorem parametersNeverChange : Obligations.ParametersNeverChange := by
  intro s t h
  obtain ⟨-, ⟨l, -, hexec⟩ | ⟨i, -, -, hexec⟩ | ⟨k, -, -, rfl⟩⟩ := step_cases h
  · exact exec_params hexec
  · exact exec_params hexec
  · exact s.raise_params k

end Sys2Proof.Machine
end

section
/-! PROOFS. Family 10_state: the invariant of the CORE, the memory as data, the STATUS word, and
what each instruction may touch. -/

namespace Sys2Proof

/-! ## What decodes is the encoding of what it decodes to (30_encoding.md R48, R50, R51) -/

theorem encode_of_decode1 {make : Operand → Instr} {n : Nat} {ws rest : List Cell} {i : Instr}
    (hmake : ∀ a, (make a).encode = [BitVec.ofNat 16 n, a.toCell])
    (h : decode1 make ws = .ok (i, rest)) : i.encode ++ rest = BitVec.ofNat 16 n :: ws := by
  obtain ⟨a, rfl, rfl⟩ := decode1_ok h
  simp [hmake, Operand.toCell_ofCell]

theorem encode_of_decode2 {make : Operand → Operand → Instr} {n : Nat} {ws rest : List Cell}
    {i : Instr} (hmake : ∀ a b, (make a b).encode = [BitVec.ofNat 16 n, a.toCell, b.toCell])
    (h : decode2 make ws = .ok (i, rest)) : i.encode ++ rest = BitVec.ofNat 16 n :: ws := by
  obtain ⟨a, b, rfl, rfl⟩ := decode2_ok h
  simp [hmake, Operand.toCell_ofCell]

theorem encode_of_decode3 {make : Operand → Operand → Operand → Instr} {n : Nat}
    {ws rest : List Cell} {i : Instr}
    (hmake : ∀ a b c, (make a b c).encode = [BitVec.ofNat 16 n, a.toCell, b.toCell, c.toCell])
    (h : decode3 make ws = .ok (i, rest)) : i.encode ++ rest = BitVec.ofNat 16 n :: ws := by
  obtain ⟨a, b, c, rfl, rfl⟩ := decode3_ok h
  simp [hmake, Operand.toCell_ofCell]

/-- By the row of the opcode map. -/
theorem encode_of_decodeOpcode {n : Nat} {ws rest : List Cell} {i : Instr}
    (h : decodeOpcode n ws = .ok (i, rest)) : i.encode ++ rest = BitVec.ofNat 16 n :: ws :=
  match n, h with
  | 0, h | 18, h | 21, h => by cases h; rfl
  | 2, h | 3, h | 6, h | 17, h | 19, h | 20, h => encode_of_decode1 (fun _ => rfl) h
  | 1, h | 7, h | 8, h | 14, h | 15, h | 16, h => encode_of_decode2 (fun _ _ => rfl) h
  | 4, h | 5, h | 9, h | 10, h | 11, h | 12, h | 13, h => encode_of_decode3 (fun _ _ _ => rfl) h

theorem encode_append_of_decode {ws rest : List Cell} {i : Instr} (h : decode ws = .ok (i, rest)) :
    i.encode ++ rest = ws := by
  cases ws with
  | nil => cases h
  | cons op ws => simpa using encode_of_decodeOpcode h

/-- At most one slot is a D slot: it is the first one (30_encoding.md R49). -/
theorem Instr.head?_slots_of_dest {i : Instr} {o : Operand} (h : (o, SlotKind.dest) ∈ i.slots) :
    i.slots.head? = some (o, .dest) := by
  cases i <;> simp [Instr.slots] at h ⊢ <;> exact h.symm

/-- The twelve opcodes of formats F1D, F2DV and F3DVV (30_encoding.md R49, R55). -/
theorem Instr.exists_dest_iff (i : Instr) :
    (∃ o, (o, SlotKind.dest) ∈ i.slots) ↔
      i.opcode ∈ [1, 3, 4, 5, 9, 10, 11, 12, 13, 14, 15, 20] := by
  cases i <;> simp [Instr.slots, Instr.opcode]

end Sys2Proof

namespace Sys2Proof.Machine

/-! ## A fetched instruction lies in memory at pc (40_execution_engine.md R62, R63) -/

theorem State.cellsFrom_length (s : State) (a n : Nat) :
    (s.cellsFrom a n).length = min n (s.memSize - a) := by
  induction n generalizing a with
  | zero => simp
  | succ n ih =>
    rcases Nat.lt_or_ge a s.memSize with hin | hout
    · rw [State.cellsFrom_inside hin, List.length_cons, ih]; omega
    · simp [State.cellsFrom_outside hout, hout]

theorem State.take_cellsFrom (s : State) {k n : Nat} (h : k ≤ n) (a : Nat) :
    (s.cellsFrom a n).take k = s.cellsFrom a k := by
  refine List.ext_getElem? fun j => ?_
  rw [List.getElem?_take, State.cellsFrom_getElem?, State.cellsFrom_getElem?]
  by_cases hj : j < k
  · simp [hj, Nat.lt_of_lt_of_le hj h]
  · simp [hj]

/-- The fetched cells are the instruction's words. -/
theorem State.cellsFrom_of_fetch {s : State} {i : Instr} (h : s.fetch = .ok i) :
    s.cellsFrom s.pc.toNat (1 + i.arity) = i.encode := by
  obtain ⟨j, rest, hdec, hf⟩ | ⟨e, -, hf⟩ := s.fetch_cases <;> rw [hf] at h <;> cases h
  have hcells := encode_append_of_decode hdec
  have hfour : 1 + i.arity ≤ 4 := by
    have hlen := congrArg List.length hcells
    rw [List.length_append, Instr.encode_length, State.cellsFrom_length] at hlen
    omega
  rw [← s.take_cellsFrom hfour, ← hcells, ← Instr.encode_length, List.take_left]

/-- Cells that encode an instruction end inside memory, which cuts `cellsFrom` off. -/
theorem State.encode_end_le {s : State} {a : Nat} {i : Instr}
    (h : s.cellsFrom a (1 + i.arity) = i.encode) : a + 1 + i.arity ≤ s.memSize := by
  have hlen := congrArg List.length h
  rw [Instr.encode_length, State.cellsFrom_length] at hlen
  omega

theorem State.memSize_le (s : State) : s.memSize ≤ 32768 := Nat.le_of_lt_succ s.params.memSize.isLt

/-- Below 65536 an addition to a pc does not wrap (10_state.md R17). -/
theorem pc_add_toNat_le {pc : Cell} {n size : Nat} (h : pc.toNat + n ≤ size)
    (hsize : size ≤ 32768) : (pc + BitVec.ofNat 16 n).toNat ≤ 32768 := by
  rw [BitVec.toNat_add, BitVec.toNat_ofNat]
  omega

/-! ## The invariant and the operations of Ops.lean

A lemma says `s.latch = none` where the operation would break what the invariant says of a waiting
`in`; while one waits, only its own poll or completion is executed. -/

theorem State.Inv.raise {s : State} (h : s.Inv) (k : FaultKind) : (s.raise k).Inv :=
  { h with
    fault_kind := by simp
    fault_pc := by simp
    wait_running := by simp
    latch_in := by simp }

theorem State.Inv.haltRun {s : State} (h : s.Inv) (hr : s.runState = .running)
    (hl : s.latch = none) : s.haltRun.Inv :=
  { h with
    fault_kind := by simpa [hr] using h.fault_kind
    fault_pc := fun _ => h.fault_pc (by simp [hr])
    wait_running := by simp [hl] }

theorem State.Inv.writeReg {w : Nat} {s : State} (h : s.Inv) (r : Reg) (v : BitVec w) :
    (s.writeReg r v).Inv := { h with }

theorem State.Inv.emit {s : State} (h : s.Inv) (v : Word) : (s.emit v).Inv := { h with }

theorem State.Inv.polled {s : State} (h : s.Inv) : s.polled.Inv := by
  unfold State.polled
  split <;> exact { h with }

theorem State.Inv.jump {s : State} (h : s.Inv) (hl : s.latch = none) {t : Cell}
    (ht : t.toNat ≤ 32768) : (s.jump t).Inv :=
  { h with
    pc_le := ht
    latch_in := by simp [hl] }

theorem State.Inv.advance {s : State} (h : s.Inv) (hl : s.latch = none) {n : Nat}
    (hend : s.pc.toNat + 1 + n ≤ s.memSize) : (s.advance n).Inv :=
  h.jump hl (pc_add_toNat_le (by omega) s.memSize_le)

theorem State.Inv.push {s : State} (h : s.Inv) (hroom : s.stackFull = false) {e : Cell}
    (he : e.toNat ≤ 32768) : State.Inv { s with stack := e :: s.stack } :=
  { h with
    stack_le := List.forall_mem_cons.2 ⟨he, h.stack_le⟩
    stack_capacity := fun n hn => by
      have hle := h.stack_capacity n hn
      have hne : s.stack.length ≠ n := fun heq => by
        simp [s.stackFull_iff.2 (heq ▸ hn)] at hroom
      simp only [List.length_cons]
      omega }

theorem State.Inv.pop {s : State} (h : s.Inv) {e : Cell} {rest : List Cell}
    (hs : s.stack = e :: rest) : State.Inv { s with stack := rest } :=
  { h with
    stack_le := fun x hx => h.stack_le x (by simp [hs, hx])
    stack_capacity := fun n hn => by
      have hle := h.stack_capacity n hn
      rw [hs, List.length_cons] at hle
      exact Nat.le_of_succ_le hle }

theorem State.Inv.memWrite {s : State} (h : s.Inv) (hl : s.latch = none) {a : Nat}
    (ha : a < s.memSize) (v : Cell) : (s.memWrite a v).Inv :=
  { h with
    mem_wf := State.memWrite_wf h.mem_wf a v
    mem_bound := Memory.write_bound h.mem_bound ha v
    latch_in := by simp [hl] }

theorem State.Inv.wait {s : State} (h : s.Inv) (hr : s.runState = .running) {r : Reg}
    (hf : s.fetch = .ok (.in_ (.reg r))) : (s.wait (.in_ (.reg r))).Inv :=
  { h with
    wait_running := fun _ => hr
    latch_in := fun l hl => by
      cases hl
      exact ⟨rfl, ⟨r, rfl⟩, State.cellsFrom_of_fetch hf⟩ }

/-- The completed `in` ends inside memory, since memory still holds its two words. -/
theorem State.Inv.receiving {s : State} (h : s.Inv) {l : Latch} (hl : s.latch = some l) (r : Reg) :
    (s.receiving l.ia r).Inv := by
  obtain ⟨hia, ⟨q, hq⟩, hcells⟩ := h.latch_in l hl
  obtain ⟨-, he⟩ | ⟨c, -, he⟩ := s.receiving_cases l.ia r <;> rw [he]
  · exact { h with }
  · have hend : s.pc.toNat + 2 ≤ s.memSize :=
      State.encode_end_le (i := .in_ (.reg q)) (hcells.trans (congrArg Instr.encode hq))
    exact { h.polled.writeReg r (normalizeInput c) with
      pc_le := hia ▸ pc_add_toNat_le hend s.memSize_le
      wait_running := by simp
      latch_in := by simp }

/-! ## The invariant and the step -/

theorem Word.setWidth_toNat_le (v : Word) : (v.setWidth 16).toNat ≤ 32768 := by
  rw [BitVec.toNat_setWidth]
  omega

/-- Executing a fetched instruction keeps the invariant, whichever of its effects it has. -/
theorem Effect.inv_of_fetch {s t : State} {i : Instr} (he : Effect s i t) (h : s.Inv)
    (hr : s.runState = .running) (hl : s.latch = none) (hf : s.fetch = .ok i) : t.Inv := by
  have hend := State.encode_end_le (State.cellsFrom_of_fetch hf)
  cases he with
  | illegal | pushFull | popEmpty | divideByZero | rmemOutside | wmemOutside | callFull =>
    exact h.raise _
  | retEmpty | halt => exact h.haltRun hr hl
  | compute v => exact (h.writeReg _ v).advance hl hend
  | goOn => exact h.advance hl hend
  | jump t => exact h.jump hl (Word.setWidth_toNat_le t)
  | push _ hroom => exact (h.push hroom (Word.setWidth_toNat_le _)).advance hl hend
  | pop hs => exact ((h.pop hs).writeReg _ _).advance hl hend
  | wmem _ _ hin => exact (h.memWrite hl hin _).advance hl hend
  | call _ hroom =>
    have hret : (s.pc + 2#16).toNat ≤ 32768 := pc_add_toNat_le hend s.memSize_le
    exact (h.push hroom hret).jump hl (Word.setWidth_toNat_le _)
  | ret hs => exact (h.pop hs).jump hl (h.stack_le _ (by simp [hs]))
  | out => exact (h.emit _).advance hl hend
  | wait => exact h.wait hr hf
  | poll hl' => exact absurd hl hl'
  | receive hl' => simp [hl] at hl'

theorem exec_in_of_latch {s : State} {l : Latch} (hl : s.latch = some l) (r : Reg) :
    exec (.in_ (.reg r)) s = .next (s.receiving l.ia r) := by simp [exec, execIn, hl]

/-- Settles O13: a step goes on with the latched `in`, executes the fetched instruction, or raises
the fault of a failed fetch. -/
theorem everyStepKeepsInvariant : Obligations.EveryStepKeepsInvariant := by
  intro s t h hstep
  obtain ⟨hr, ⟨l, hl, hexec⟩ | ⟨i, hl, hf, hexec⟩ | ⟨k, -, -, rfl⟩⟩ := step_cases hstep
  · obtain ⟨-, ⟨r, hin⟩, -⟩ := h.latch_in l hl
    rw [hin, exec_in_of_latch hl] at hexec
    cases hexec
    exact h.receiving hl r
  · exact (effect_of_exec hexec).inv_of_fetch h hr hl hf
  · exact h.raise k

/-- Settles O11: after reset nothing is listed, stacked or latched. -/
theorem resetSatisfiesInvariant : Obligations.ResetSatisfiesInvariant where
  mem_wf := State.reset_mem_wf
  mem_bound := by simp
  pc_le := by simp
  stack_le := by simp
  stack_capacity := by simp
  fault_kind := by simp
  fault_pc := by simp
  wait_running := by simp
  latch_in := by simp

/-! ## Reset (10_state.md R32) -/

@[simp] theorem RegFile.get_zero (r : Reg) : RegFile.zero.get r = 0#15 := by cases r <;> rfl

/-- Settles O9: each reset value stands in `State.reset`; the registers' in `RegFile.zero`. -/
theorem resetStateHoldsResetValues : Obligations.ResetStateHoldsResetValues :=
  ⟨RegFile.get_zero, rfl, rfl, rfl, rfl, rfl⟩

/-! ## The memory as data (10_state.md R23; log 1) -/

/-- A canonical memory lists exactly the cells that do not hold 0, with what they hold. -/
theorem Memory.mem_iff_read {m : Memory} (h : Memory.wf m) (p : Nat × Cell) :
    p ∈ m ↔ Memory.read m p.1 = p.2 ∧ p.2 ≠ 0#16 := by
  induction m with
  | nil => exact ⟨fun hp => absurd hp List.not_mem_nil, fun ⟨hv, hne⟩ => absurd hv.symm hne⟩
  | cons q m ih =>
    obtain ⟨hsorted, hnonzero⟩ := h
    obtain ⟨hhead, htail⟩ := List.pairwise_cons.1 hsorted
    have ih := ih ⟨htail, fun p hp => hnonzero p (.tail q hp)⟩
    rw [Memory.read_cons, List.mem_cons]
    by_cases ha : q.1 = p.1
    · have hout : p ∉ m := fun hp => Nat.ne_of_lt (hhead p hp) ha
      rw [if_pos ha]
      refine ⟨?_, fun ⟨hv, _⟩ => .inl (Prod.ext ha hv).symm⟩
      rintro (rfl | hp)
      · exact ⟨rfl, hnonzero p List.mem_cons_self⟩
      · exact absurd hp hout
    · have hne : p ≠ q := fun he => ha (congrArg Prod.fst he).symm
      rw [if_neg ha, ← ih, or_iff_right hne]

/-- Settles O8: canonical memories that read alike list the same pairs, and both list them in the
order of their addresses. -/
theorem equalMemoriesAreEqualData : Obligations.EqualMemoriesAreEqualData := by
  intro m m' hm hm' hread
  have : Std.Asymm fun p q : Nat × Cell => p.1 < q.1 := ⟨fun _ _ => Nat.lt_asymm⟩
  refine hm.1.eq_of_mem_iff hm'.1 fun p => ?_
  rw [Memory.mem_iff_read hm, Memory.mem_iff_read hm', hread]

/-! ## The STATUS word (10_state.md R28, R29) -/

theorem RunState.code_le (r : RunState) : r.code ≤ 2 := by cases r <;> decide

theorem RunState.code_eq_two_iff (r : RunState) : r.code = 2 ↔ r = .faulted := by
  cases r <;> simp [RunState.code]

theorem RunState.code_eq_zero_iff (r : RunState) : r.code = 0 ↔ r = .running := by
  cases r <;> simp [RunState.code]

theorem State.faultKindCode_le (s : State) : s.faultKindCode ≤ 6 := by
  unfold State.faultKindCode
  split
  · decide
  · rename_i k _; cases k <;> decide

theorem State.faultKindCode_ne_zero_iff (s : State) : s.faultKindCode ≠ 0 ↔ s.faultKind ≠ none := by
  unfold State.faultKindCode
  split
  · simp [*]
  · rename_i k hk; cases k <;> simp [hk, FaultKind.code]

/-- The word has room for the three fields, so none reaches into the next. -/
theorem State.status_toNat (s : State) :
    s.status.toNat = s.runState.code + 4 * s.waitIn.toNat + 8 * s.faultKindCode := by
  have hr := s.runState.code_le
  have hw := s.waitIn.toNat_le
  have hk := s.faultKindCode_le
  rw [State.status, BitVec.toNat_ofNat]
  omega

theorem State.status_runState (s : State) : s.status.toNat % 4 = s.runState.code := by
  have hr := s.runState.code_le
  rw [s.status_toNat]
  omega

theorem State.status_waitIn (s : State) : s.status.toNat / 4 % 2 = s.waitIn.toNat := by
  have hr := s.runState.code_le
  have hw := s.waitIn.toNat_le
  rw [s.status_toNat]
  omega

theorem State.status_faultKind (s : State) : s.status.toNat / 8 = s.faultKindCode := by
  have hr := s.runState.code_le
  have hw := s.waitIn.toNat_le
  rw [s.status_toNat]
  omega

/-- Settles O15: the fields stand apart in the word, and the invariant says when each may be
non-zero. -/
theorem statusWordShowsRunState : Obligations.StatusWordShowsRunState := by
  intro s h
  have hr := s.runState.code_le
  have hk := s.faultKindCode_le
  have hkind : s.status.toNat / 8 % 8 = s.faultKindCode := by
    rw [s.status_faultKind, Nat.mod_eq_of_lt (by omega)]
  have hbound : s.status.toNat < 64 := by
    have := s.status_faultKind
    omega
  rw [hkind, s.status_runState, s.status_waitIn]
  refine ⟨rfl, rfl, rfl, ?wait, rfl, hbound, by omega, by omega, ?kind, ?waitRunning, ?faultPc⟩
  case wait => cases s.waitIn <;> rfl
  case kind => rw [s.faultKindCode_ne_zero_iff, h.fault_kind, RunState.code_eq_two_iff]
  case waitRunning =>
    intro hstopped
    have hl : s.latch = none := by
      by_contra hl
      exact hstopped (s.runState.code_eq_zero_iff.2 (h.wait_running hl))
    simp [State.waitIn, hl]
  case faultPc => exact fun hne => h.fault_pc (mt s.runState.code_eq_two_iff.2 hne)

/-! ## Registers (10_state.md R14) -/

/-- A register written through a D slot is the only one that may read otherwise. -/
theorem sameRegsButDest_of_writeReg {w : Nat} {i : Instr} {r : Reg}
    (hd : (Operand.reg r, SlotKind.dest) ∈ i.slots) (v : BitVec w) (s : State) :
    SameRegsButDest i s (s.writeReg r v) :=
  fun _ hq => s.readReg_writeReg_other v fun he => hq (he ▸ hd)

theorem Effect.sameRegsButDest {s t : State} {i : Instr} (h : Effect s i t) :
    SameRegsButDest i s t := by
  cases h with
  | compute v hd => exact sameRegsButDest_of_writeReg hd v s
  | pop => exact sameRegsButDest_of_writeReg List.mem_cons_self _ s
  | @receive r _ c =>
    intro q hq
    have hother : (s.polled.writeReg r (normalizeInput c)).readReg q = s.polled.readReg q :=
      sameRegsButDest_of_writeReg List.mem_cons_self _ s.polled q hq
    exact hother.trans (congrArg (·.get q) s.polled_regs)
  | _ => exact fun _ _ => rfl

/-- Settles O47: the word of a register reference is classified as it was encoded, and the effects
of an instruction write a register through its D slot alone, which is its first slot. -/
theorem onlyDestinationRegisterChanges : Obligations.OnlyDestinationRegisterChanges := by
  refine ⟨?readsRegister, ?writesDest, ?oneDest, Instr.exists_dest_iff⟩
  case readsRegister =>
    intro s r
    have hword : Operand.ofCell (Operand.reg r).toCell = .reg r :=
      Operand.ofCell_toCell (k := .value) rfl
    exact congrArg s.resolve hword
  case writesDest => exact fun i s t h => (effect_of_exec h).sameRegsButDest
  case oneDest =>
    intro i o o' h h'
    have heq := (Instr.head?_slots_of_dest h).symm.trans (Instr.head?_slots_of_dest h')
    cases heq
    rfl

/-! ## The stack (10_state.md R20) -/

/-- Settles O48, by the effects that change the stack. -/
theorem onlyFourInstructionsTouchStack : Obligations.OnlyFourInstructionsTouchStack := by
  intro i s t h
  cases effect_of_exec h with
  | push => exact .inr (.inl ⟨⟨_, .inl rfl⟩, _, rfl⟩)
  | call => exact .inr (.inl ⟨⟨_, .inr rfl⟩, _, rfl⟩)
  | pop hs => exact .inr (.inr ⟨.inl ⟨_, rfl⟩, _, hs⟩)
  | ret hs => exact .inr (.inr ⟨.inr rfl, _, hs⟩)
  | receive => exact .inl s.polled_stack
  | _ => exact .inl rfl

/-! ## Memory (10_state.md R23; 20_memory.md R41) -/

/-- Memory is as before, or `wmem` has written its resolved address. -/
theorem Effect.mem_cases {s t : State} {i : Instr} (h : Effect s i t) :
    t.mem = s.mem ∨ ∃ a b addr v, i = .wmem a b ∧ s.resolve a = some addr ∧
      addr.toNat < s.memSize ∧ t.mem = Memory.write s.mem addr.toNat v := by
  cases h with
  | wmem ha _ hin => exact .inr ⟨_, _, _, _, rfl, ha, hin, rfl⟩
  | receive => exact .inl s.polled_mem
  | _ => exact .inl rfl

/-- Settles O49: a write leaves every other cell alone. -/
theorem onlyWmemChangesMemory : Obligations.OnlyWmemChangesMemory := by
  intro i s t c h hne
  unfold State.memRead at hne
  obtain hmem | ⟨a, b, addr, v, rfl, ha, hin, hmem⟩ := (effect_of_exec h).mem_cases
  · exact absurd (by rw [hmem]) hne
  · have hc : addr.toNat = c := by
      by_contra hother
      exact hne (by rw [hmem, Memory.read_write_other _ _ (Ne.symm hother)])
    exact ⟨a, b, addr, rfl, ha, hc, hc ▸ hin⟩

end Sys2Proof.Machine
end

section
/-! PROOFS. Family 20_memory: the words of the image. -/

namespace Sys2Proof

/-! ## Image words from bytes (20_memory.md R37) -/

/-- The value of the word whose high and low bytes are given. -/
theorem toNat_byte_append (hi lo : BitVec 8) : (hi ++ lo).toNat = lo.toNat + 256 * hi.toNat := by
  rw [BitVec.toNat_append, ← Nat.shiftLeft_add_eq_or_of_lt lo.isLt, Nat.shiftLeft_eq,
    Nat.add_comm, Nat.mul_comm]

theorem imageOfBytes_cons_cons_eq_some_iff {lo hi : BitVec 8} {rest : List (BitVec 8)}
    {image : List Cell} :
    imageOfBytes (lo :: hi :: rest) = some image ↔
      ∃ ws, imageOfBytes rest = some ws ∧ (hi ++ lo) :: ws = image :=
  Option.map_eq_some_iff

end Sys2Proof

namespace Sys2Proof.Machine

/-- Settles O6, by the recursion of `imageOfBytes`: word 0 is the first pair of bytes, and word
`k + 1` is word `k` of the bytes after it. -/
theorem imageWordsAreLittleEndian : Obligations.ImageWordsAreLittleEndian := by
  intro bytes
  induction bytes using imageOfBytes.induct with
  | case1 => rintro _ ⟨⟩; simp
  | case2 => rintro _ ⟨⟩
  | case3 lo hi rest ih =>
    intro image h
    obtain ⟨ws, hws, rfl⟩ := imageOfBytes_cons_cons_eq_some_iff.1 h
    obtain ⟨hlength, hwords⟩ := ih ws hws
    refine ⟨by simp only [List.length_cons]; omega, fun k hk => ?_⟩
    cases k with
    | zero => exact toNat_byte_append hi lo
    | succ k => exact hwords k (Nat.lt_of_succ_lt_succ hk)

end Sys2Proof.Machine
end

section
/-! PROOFS. Family 30_encoding: the decoder and the encoder undo each other, the opcode word fixes
the length, the classes of operand words, and what an illegal slot does. -/

namespace Sys2Proof

/-! ## Decoding an encoding (30_encoding.md R48, R51, R55) -/

/-- The check of every slot of a list (30_encoding.md R54); `Instr.wellFormed` is this check of the
instruction's own slots. -/
def slotsFit (slots : List (Operand × SlotKind)) : Bool := slots.all fun slot => slot.1.fits slot.2

theorem Instr.wellFormed_eq_slotsFit (i : Instr) : i.wellFormed = slotsFit i.slots := rfl

theorem slotsFit_cons (o : Operand) (k : SlotKind) (slots : List (Operand × SlotKind)) :
    slotsFit ((o, k) :: slots) = (o.fits k && slotsFit slots) := rfl

/-- Legal operands are read back from their words, whatever the kinds of their slots. -/
theorem ofCell_toCell_cons {o : Operand} {k : SlotKind} {slots : List (Operand × SlotKind)}
    (h : slotsFit ((o, k) :: slots) = true) :
    Operand.ofCell o.toCell = o ∧ slotsFit slots = true := by
  rw [slotsFit_cons, Bool.and_eq_true] at h
  exact h.imp_left Operand.ofCell_toCell

theorem decode1_toCell (make : Operand → Instr) {a : Operand} {k : SlotKind}
    (h : slotsFit [(a, k)] = true) (rest : List Cell) :
    decode1 make (a.toCell :: rest) = .ok (make a, rest) := by
  obtain ⟨ha, -⟩ := ofCell_toCell_cons h
  rw [decode1, ha]

theorem decode2_toCell (make : Operand → Operand → Instr) {a b : Operand} {k l : SlotKind}
    (h : slotsFit [(a, k), (b, l)] = true) (rest : List Cell) :
    decode2 make (a.toCell :: b.toCell :: rest) = .ok (make a b, rest) := by
  obtain ⟨ha, h⟩ := ofCell_toCell_cons h
  obtain ⟨hb, -⟩ := ofCell_toCell_cons h
  rw [decode2, ha, hb]

theorem decode3_toCell (make : Operand → Operand → Operand → Instr) {a b c : Operand}
    {k l m : SlotKind} (h : slotsFit [(a, k), (b, l), (c, m)] = true) (rest : List Cell) :
    decode3 make (a.toCell :: b.toCell :: c.toCell :: rest) = .ok (make a b c, rest) := by
  obtain ⟨ha, h⟩ := ofCell_toCell_cons h
  obtain ⟨hb, h⟩ := ofCell_toCell_cons h
  obtain ⟨hc, -⟩ := ofCell_toCell_cons h
  rw [decode3, ha, hb, hc]

/-- The opcode word selects the instruction's own row of the opcode map. -/
theorem decode_encode_append {i : Instr} (h : i.wellFormed = true) (rest : List Cell) :
    decode (i.encode ++ rest) = .ok (i, rest) := by
  rw [Instr.wellFormed_eq_slotsFit] at h
  cases i with
  | halt | ret | noop => rfl
  | push a | pop a | jmp a | call a | out a | in_ a => exact decode1_toCell _ h rest
  | set a b | jt a b | jf a b | not a b | rmem a b | wmem a b => exact decode2_toCell _ h rest
  | eq a b c | gt a b c | add a b c | mult a b c | mod a b c | and a b c | or a b c =>
    exact decode3_toCell _ h rest

/-! ## The opcode word fixes the length (30_encoding.md R55, R58) -/

/-- `r` takes exactly `n` of the words `ws`: it is an instruction and the words left over, or, where
there are fewer words, truncated. -/
def TakesWords (n : Nat) (ws : List Cell) (r : Except DecodeError (Instr × List Cell)) : Prop :=
  (n ≤ ws.length → ∃ i, r = .ok (i, ws.drop n)) ∧ (ws.length < n → r = .error .truncated)

theorem takesWords_zero (i : Instr) (ws : List Cell) : TakesWords 0 ws (.ok (i, ws)) :=
  ⟨fun _ => ⟨i, rfl⟩, nofun⟩

theorem takesWords_decode1 (make : Operand → Instr) (ws : List Cell) :
    TakesWords 1 ws (decode1 make ws) :=
  match ws with
  | [] => ⟨nofun, fun _ => rfl⟩
  | _ :: _ => ⟨fun _ => ⟨_, rfl⟩, fun h => by simp at h⟩

theorem takesWords_decode2 (make : Operand → Operand → Instr) (ws : List Cell) :
    TakesWords 2 ws (decode2 make ws) :=
  match ws with
  | [] | [_] => ⟨fun h => by simp at h, fun _ => rfl⟩
  | _ :: _ :: _ => ⟨fun _ => ⟨_, rfl⟩, fun h => by simp at h⟩

theorem takesWords_decode3 (make : Operand → Operand → Operand → Instr) (ws : List Cell) :
    TakesWords 3 ws (decode3 make ws) :=
  match ws with
  | [] | [_] | [_, _] => ⟨fun h => by simp at h, fun _ => rfl⟩
  | _ :: _ :: _ :: _ => ⟨fun _ => ⟨_, rfl⟩, fun h => by simp only [List.length_cons] at h; omega⟩

/-- By the row of the opcode map. -/
theorem takesWords_decodeOpcode {op n : Nat} (h : arityOf op = some n) (ws : List Cell) :
    TakesWords n ws (decodeOpcode op ws) :=
  match op, h with
  | 0, rfl | 18, rfl | 21, rfl => takesWords_zero _ ws
  | 2, rfl | 3, rfl | 6, rfl | 17, rfl | 19, rfl | 20, rfl => takesWords_decode1 _ ws
  | 1, rfl | 7, rfl | 8, rfl | 14, rfl | 15, rfl | 16, rfl => takesWords_decode2 _ ws
  | 4, rfl | 5, rfl | 9, rfl | 10, rfl | 11, rfl | 12, rfl | 13, rfl => takesWords_decode3 _ ws

/-- The encoding of what was decoded begins with the opcode word. -/
theorem opcode_of_decode {op : Cell} {ws rest : List Cell} {i : Instr}
    (h : decode (op :: ws) = .ok (i, rest)) : i.opcode = op.toNat := by
  have hhead : BitVec.ofNat 16 i.opcode = op := (List.cons.inj (encode_append_of_decode h)).1
  have hlt := i.opcode_lt
  rw [← hhead, BitVec.toNat_ofNat, Nat.mod_eq_of_lt (by omega)]

/-- With enough words, an opcode word decodes to an instruction of its opcode and arity. -/
theorem exists_decode_of_arityOf {op : Cell} {n : Nat} {ws : List Cell}
    (h : arityOf op.toNat = some n) (hlen : n ≤ ws.length) :
    ∃ i, i.opcode = op.toNat ∧ i.arity = n ∧ decode (op :: ws) = .ok (i, ws.drop n) := by
  obtain ⟨i, hdec⟩ := (takesWords_decodeOpcode h ws).1 hlen
  have hop : i.opcode = op.toNat := opcode_of_decode (rest := ws.drop n) hdec
  have harity : some i.arity = some n := by rw [← i.arityOf_opcode, hop, h]
  exact ⟨i, hop, Option.some.inj harity, hdec⟩

theorem arityOf_eq_none_of_le {op : Nat} (h : 22 ≤ op) : arityOf op = none := by
  obtain ⟨k, rfl⟩ := Nat.exists_eq_add_of_le' h
  rfl

theorem decodeOpcode_of_le {op : Nat} (h : 22 ≤ op) (ws : List Cell) :
    decodeOpcode op ws = .error .invalidOpcode := by
  obtain ⟨k, rfl⟩ := Nat.exists_eq_add_of_le' h
  rfl

/-! ## The classes of operand words (30_encoding.md R51) -/

theorem Operand.ofCell_of_lt {v : Cell} (h : v.toNat < 32768) :
    Operand.ofCell v = .lit (v.setWidth 15) := if_pos h

theorem Operand.ofCell_of_ofIndex {v : Cell} (h : 32768 ≤ v.toNat) {r : Reg}
    (hr : Reg.ofIndex (v.toNat - 32768) = some r) : Operand.ofCell v = .reg r := by
  rw [Operand.ofCell, if_neg (Nat.not_lt.2 h), hr]

theorem Operand.ofCell_of_le {v : Cell} (h : 32776 ≤ v.toNat) : Operand.ofCell v = .invalid v := by
  have hnone : Reg.ofIndex (v.toNat - 32768) = none := Reg.ofIndex_eq_none.2 (by omega)
  rw [Operand.ofCell, if_neg (by omega), hnone]

theorem Reg.exists_ofIndex {n : Nat} (h : n < 8) : ∃ r, Reg.ofIndex n = some r :=
  Option.ne_none_iff_exists'.1 (mt Reg.ofIndex_eq_none.1 (Nat.not_le.2 h))

end Sys2Proof

namespace Sys2Proof.Machine

/-! ## Illegal slots (30_encoding.md R54, R57) -/

/-- A V slot raises InvalidOperand when it or a later slot is illegal, if going on from it does so
when a later one is. -/
theorem State.withValue_of_illegal {s : State} {o : Operand} {k : Word → State}
    {slots : List (Operand × SlotKind)} (h : slotsFit ((o, .value) :: slots) = false)
    (hk : slotsFit slots = false → ∀ v, k v = s.raise .invalidOperand) :
    s.withValue o k = s.raise .invalidOperand := by
  obtain ⟨-, he⟩ | ⟨v, ho, he⟩ := s.withValue_cases o k
  · exact he
  · have hfits : o.fits .value = true := by rw [← s.resolve_isSome, ho]; rfl
    rw [slotsFit_cons, hfits, Bool.true_and] at h
    exact he.trans (hk h v)

/-- The same of a D slot: what goes on from its register raises InvalidOperand for a later slot. -/
theorem State.withDest_of_illegal {s : State} {o : Operand} {k : Reg → State}
    {slots : List (Operand × SlotKind)} (h : slotsFit ((o, .dest) :: slots) = false)
    (hk : slotsFit slots = false → ∀ r, k r = s.raise .invalidOperand) :
    s.withDest o k = s.raise .invalidOperand := by
  obtain ⟨-, he⟩ | ⟨r, rfl, he⟩ := s.withDest_cases o k
  · exact he
  · exact he.trans (hk h r)

/-- The meaning of each instruction checks its slots in order before anything else. -/
theorem exec_of_illegal {i : Instr} (h : i.wellFormed = false) (s : State) :
    exec i s = .next (s.raise .invalidOperand) := by
  rw [Instr.wellFormed_eq_slotsFit] at h
  cases i with
  | halt | ret | noop => cases h
  | push a | jmp a | call a | out a =>
    exact congrArg Host.Outcome.next (State.withValue_of_illegal h nofun)
  | pop a | in_ a => exact congrArg Host.Outcome.next (State.withDest_of_illegal h nofun)
  | jt a b | jf a b | wmem a b =>
    exact congrArg Host.Outcome.next (State.withValue_of_illegal h fun h _ =>
      State.withValue_of_illegal h nofun)
  | set a b | not a b | rmem a b =>
    exact congrArg Host.Outcome.next (State.withDest_of_illegal h fun h _ =>
      State.withValue_of_illegal h nofun)
  | eq a b c | gt a b c | add a b c | mult a b c | mod a b c | and a b c | or a b c =>
    exact congrArg Host.Outcome.next (State.withDest_of_illegal h fun h _ =>
      State.withValue_of_illegal h fun h _ => State.withValue_of_illegal h nofun)

/-! ## The statements -/

/-- Settles O1, by the instruction: each of its legal operands is read back from its word. -/
theorem decodeOfEncodeIsIdentity : Obligations.DecodeOfEncodeIsIdentity :=
  fun _ rest h => decode_encode_append h rest

/-- Settles O2, by the row of the opcode map, where every operand word is written back as it was. -/
theorem encodeOfDecodeIsIdentity : Obligations.EncodeOfDecodeIsIdentity :=
  fun _ _ _ => encode_append_of_decode

/-- Settles O3: below 22, each row of the opcode map takes the words ARITY says. -/
theorem opcodeWordAloneFixesLength : Obligations.OpcodeWordAloneFixesLength := fun _ ws =>
  ⟨fun _ => exists_decode_of_arityOf, fun _ h => (takesWords_decodeOpcode h ws).2,
    fun h => ⟨arityOf_eq_none_of_le h, decodeOpcode_of_le h ws⟩⟩

/-- Settles O18: the meaning answers `State.raise`, which writes what fault entry writes. -/
theorem illegalOperandRaisesInvalidOperand : Obligations.IllegalOperandRaisesInvalidOperand :=
  fun _ s h => ⟨s.raise .invalidOperand, exec_of_illegal h s, rfl⟩

/-- Settles O4: the printed words are the encodings of these legal instructions. -/
theorem printedEncodingsDecode : Obligations.PrintedEncodingsDecode :=
  ⟨decode_encode_append (i := .add (.reg .r0) (.reg .r1) (.lit 4#15)) rfl [],
    decode_encode_append (i := .out (.reg .r0)) rfl [],
    decode_encode_append (i := .halt) rfl [],
    decode_encode_append (i := .jt (.reg .r7) (.lit 1234#15)) rfl [],
    decode_encode_append (i := .wmem (.reg .r1) (.lit 0#15)) rfl []⟩

/-- Settles O5: the class of the word decides what it resolves to and which register it names. -/
theorem operandWordsHaveThreeClasses : Obligations.OperandWordsHaveThreeClasses := by
  intro s v
  refine ⟨fun hlt => ?literal, fun hle hlt => ?register, fun hle => ?invalid⟩
  case literal =>
    have hvalue : (v.setWidth 15).toNat = v.toNat := by
      rw [BitVec.toNat_setWidth, Nat.mod_eq_of_lt hlt]
    rw [Operand.ofCell_of_lt hlt]
    exact ⟨⟨_, hvalue, rfl, rfl⟩, rfl⟩
  case register =>
    obtain ⟨r, hr⟩ := Reg.exists_ofIndex (n := v.toNat - 32768) (by omega)
    rw [Operand.ofCell_of_ofIndex hle hr]
    exact ⟨r, Reg.index_of_ofIndex hr, rfl, rfl, rfl⟩
  case invalid =>
    rw [Operand.ofCell_of_le hle]
    exact ⟨rfl, rfl, rfl⟩

end Sys2Proof.Machine
end

section
/-! PROOFS. Family 40_execution_engine: the modulo arithmetic unit, the fetch at pc, when the CORE
steps and what a step runs, the wait for a character, and which instructions jump. -/

namespace Sys2Proof.Machine

/-! ## The modulo arithmetic unit (40_execution_engine.md R74 to R76)

Its functions are the library's operations on bit vectors, whose laws then serve. -/

theorem add15_eq_add (b c : Word) : add15 b c = b + c := by
  rw [add15, BitVec.ofNat_add, BitVec.ofNat_toNat, BitVec.ofNat_toNat, BitVec.setWidth_eq,
    BitVec.setWidth_eq]

theorem mul15_eq_mul (b c : Word) : mul15 b c = b * c := by
  rw [mul15, BitVec.ofNat_mul, BitVec.ofNat_toNat, BitVec.ofNat_toNat, BitVec.setWidth_eq,
    BitVec.setWidth_eq]

theorem rem15_eq_umod (b c : Word) : rem15 b c = b % c := by
  rw [rem15, ← BitVec.toNat_umod, BitVec.ofNat_toNat, BitVec.setWidth_eq]

theorem not15_eq_not (b : Word) : not15 b = ~~~b := BitVec.xor_allOnes

/-- Adding `32768 - k` adds the negative of `k` (40_execution_engine.md R75). -/
theorem ofNat_sub_mod_eq_neg (y : Word) : BitVec.ofNat 15 ((32768 - y.toNat) % 32768) = -y :=
  BitVec.eq_of_toNat_eq (by simp)

theorem eq15_toNat (b c : Word) : (eq15 b c).toNat = if b.toNat = c.toNat then 1 else 0 := by
  rw [eq15, apply_ite BitVec.toNat]
  simp only [BitVec.toNat_inj, BitVec.toNat_ofNat, Nat.reducePow, Nat.reduceMod]

theorem gt15_toNat (b c : Word) : (gt15 b c).toNat = if c.toNat < b.toNat then 1 else 0 := by
  rw [gt15, apply_ite BitVec.toNat]
  rfl

theorem gt15_eq_one_iff (b c : Word) : gt15 b c = 1#15 ↔ c.toNat < b.toNat := by
  simp [gt15]

/-- Settles O35: each function as a number, by the library's value of its operation. -/
theorem arithmeticUnitComputesModulo : Obligations.ArithmeticUnitComputesModulo := fun b c =>
  ⟨by rw [add15_eq_add, BitVec.toNat_add], by rw [mul15_eq_mul, BitVec.toNat_mul],
    fun _ => by rw [rem15_eq_umod, BitVec.toNat_umod], BitVec.toNat_and .., BitVec.toNat_or ..,
    BitVec.toNat_xor .., by rw [not15_eq_not, BitVec.toNat_not], eq15_toNat b c, gt15_toNat b c⟩

/-- Settles O36, by the laws of the library's operations; a comparison is
one of its two constants. -/
theorem arithmeticUnitLaws : Obligations.ArithmeticUnitLaws := by
  intro x y z
  simp only [add15_eq_add, mul15_eq_mul, rem15_eq_umod, not15_eq_not, ofNat_sub_mod_eq_neg]
  refine ⟨BitVec.not_not, ?eqBit, ?gtBit, BitVec.add_comm x y, BitVec.mul_comm x y,
    BitVec.add_assoc x y z, BitVec.mul_assoc x y z, BitVec.add_zero x, BitVec.mul_one x,
    BitVec.mul_zero, BitVec.add_not_self x, ?remBelow, BitVec.umod_one, BitVec.umod_eq_of_lt,
    ?gtAsymm, ?subtract⟩
  case eqBit => exact (ite_eq_or_eq _ _ _).symm
  case gtBit => exact (ite_eq_or_eq _ _ _).symm
  case remBelow =>
    intro hy
    rw [BitVec.toNat_umod]
    exact Nat.mod_lt _ (Nat.pos_of_ne_zero hy)
  case gtAsymm =>
    intro h
    exact if_neg (Nat.lt_asymm ((gt15_eq_one_iff x y).1 h))
  case subtract =>
    intro hle
    rw [← BitVec.sub_eq_add_neg]
    exact BitVec.toNat_sub_of_le hle

/-! ## When the CORE steps (40_execution_engine.md R61, R67, R69 to R71) -/

/-- Every instruction has its handler, and every handler answers a next state. -/
theorem exists_exec_eq_next (i : Instr) (s : State) : ∃ t, exec i s = .next t := by
  cases i <;> exact ⟨_, rfl⟩

/-- Settles O19: `step` reads RUN_STATE first. -/
theorem stoppedCoreTakesNoStep : Obligations.StoppedCoreTakesNoStep := fun s =>
  ⟨fun h => by rw [step, h], fun h => by rw [step, h]⟩

/-- Settles O20: while Running there is a latched instruction to go on with, a fetched one to
execute, or the fault of the failed fetch to raise. -/
theorem coreStepsExactlyWhileRunning : Obligations.CoreStepsExactlyWhileRunning := by
  intro s
  refine ⟨fun ⟨t, hstep⟩ => (step_cases hstep).1, fun hr => ?_⟩
  cases hl : s.latch with
  | some l => rw [step_of_latch hr hl]; exact exists_exec_eq_next l.instr s
  | none =>
    cases hf : s.fetch with
    | ok i => rw [step_of_fetch hr hl hf]; exact exists_exec_eq_next i s
    | error k => exact ⟨_, step_of_fetch_error hr hl hf⟩

/-- Settles O14, by induction on the length of the run. -/
theorem everyRunKeepsInvariant : Obligations.EveryRunKeepsInvariant := by
  intro n
  induction n with
  | zero => intro s t h hrun; cases hrun; exact h
  | succ n ih =>
    intro s u h hrun
    obtain ⟨t, hstep, hrest⟩ := core_run_next hrun
    exact ih t u (everyStepKeepsInvariant s t h hstep) hrest

/-! ## The fetch at pc (40_execution_engine.md R62, R63) -/

/-- An instruction is at most four words long (30_encoding.md R48). -/
theorem arityOf_le {op n : Nat} (h : arityOf op = some n) : n ≤ 3 := by
  unfold arityOf at h
  split at h <;> cases h <;> decide

theorem State.fetch_of_decode {s : State} {i : Instr} {rest : List Cell}
    (h : decode (s.cellsFrom s.pc.toNat 4) = .ok (i, rest)) : s.fetch = .ok i := by
  rw [State.fetch, h]

theorem State.fetch_of_decode_error {s : State} {e : DecodeError}
    (h : decode (s.cellsFrom s.pc.toNat 4) = .error e) :
    s.fetch = .error (DecodeError.faultKind e) := by
  rw [State.fetch, h]

/-- The converse of `State.cellsFrom_of_fetch`, for a legal instruction. -/
theorem State.fetch_of_cellsFrom {s : State} {i : Instr} (hi : i.wellFormed = true)
    (h : s.cellsFrom s.pc.toNat (1 + i.arity) = i.encode) : s.fetch = .ok i := by
  have hfour : 1 + i.arity ≤ 4 := by have := arityOf_le i.arityOf_opcode; omega
  rw [← s.take_cellsFrom hfour] at h
  refine State.fetch_of_decode (rest := (s.cellsFrom s.pc.toNat 4).drop (1 + i.arity)) ?_
  rw [← decode_encode_append hi, ← h, List.take_append_drop]

/-- Words that stand in memory from `a` up are the cells from `a` up. -/
theorem State.cellsFrom_eq_of_memRead {s : State} {a : Nat} {ws : List Cell}
    (hend : a + ws.length ≤ s.memSize)
    (hwords : ∀ k, k < ws.length → s.memRead (a + k) = ws.getD k 0#16) :
    s.cellsFrom a ws.length = ws := by
  refine List.ext_getElem? fun k => ?_
  rw [State.cellsFrom_getElem?]
  rcases Nat.lt_or_ge k ws.length with hk | hk
  · rw [if_pos ⟨hk, by omega⟩, hwords k hk, List.getD_eq_getElem _ _ hk,
      List.getElem?_eq_getElem hk]
  · rw [if_neg (by omega), List.getElem?_eq_none hk]

/-- A fetched instruction's k-th word is read from the k-th cell from pc up. -/
theorem State.encode_getD_of_fetch {s : State} {i : Instr} (h : s.fetch = .ok i) {k : Nat}
    (hk : k ≤ i.arity) : i.encode.getD k 0#16 = s.memRead (s.pc.toNat + k) := by
  have hcells := State.cellsFrom_of_fetch h
  have hend := State.encode_end_le hcells
  rw [← hcells, List.getD_eq_getElem?_getD, State.cellsFrom_getElem?,
    if_pos ⟨by omega, by omega⟩, Option.getD_some]

/-- Inside memory the cell at pc is the opcode word. -/
theorem State.decode_cellsFrom_pc {s : State} (h : s.pc.toNat < s.memSize) :
    decode (s.cellsFrom s.pc.toNat 4) =
      decodeOpcode (s.memRead s.pc.toNat).toNat (s.cellsFrom (s.pc.toNat + 1) 3) := by
  rw [State.cellsFrom_inside h, decode]

theorem State.fetch_outside {s : State} (h : s.memSize ≤ s.pc.toNat) :
    s.fetch = .error .memoryOutOfBounds :=
  State.fetch_of_decode_error (e := .truncated) (by rw [State.cellsFrom_outside h, decode])

theorem State.fetch_invalidOpcode {s : State} (h : s.pc.toNat < s.memSize)
    (hop : 22 ≤ (s.memRead s.pc.toNat).toNat) : s.fetch = .error .invalidOpcode :=
  State.fetch_of_decode_error (e := .invalidOpcode)
    (by rw [State.decode_cellsFrom_pc h, decodeOpcode_of_le hop])

theorem State.fetch_operandOutside {s : State} {n : Nat} (h : s.pc.toNat < s.memSize)
    (hn : arityOf (s.memRead s.pc.toNat).toNat = some n) (hout : s.memSize ≤ s.pc.toNat + n) :
    s.fetch = .error .memoryOutOfBounds := by
  have hfew : (s.cellsFrom (s.pc.toNat + 1) 3).length < n := by
    rw [State.cellsFrom_length]; omega
  refine State.fetch_of_decode_error (e := .truncated) ?_
  rw [State.decode_cellsFrom_pc h, (takesWords_decodeOpcode hn _).2 hfew]

theorem State.exists_fetch {s : State} {n : Nat}
    (hn : arityOf (s.memRead s.pc.toNat).toNat = some n) (hin : s.pc.toNat + n < s.memSize) :
    ∃ i, s.fetch = .ok i ∧ i.opcode = (s.memRead s.pc.toNat).toNat ∧ i.arity = n := by
  have henough : n ≤ (s.cellsFrom (s.pc.toNat + 1) 3).length := by
    have hthree := arityOf_le hn
    rw [State.cellsFrom_length]
    omega
  obtain ⟨i, hop, harity, hdec⟩ := exists_decode_of_arityOf hn henough
  rw [← State.cellsFrom_inside (by omega)] at hdec
  exact ⟨i, State.fetch_of_decode hdec, hop, harity⟩

/-- A failed fetch takes its fault. -/
theorem exists_faultTaken_of_fetch_error {s : State} {k : FaultKind} (hr : s.runState = .running)
    (hl : s.latch = none) (hf : s.fetch = .error k) :
    ∃ t, step s = .next t ∧ FaultTaken k s t :=
  ⟨s.raise k, step_of_fetch_error hr hl hf, rfl⟩

/-- Settles O17: each clause says which words the fetch finds, and so what decoding them answers. -/
theorem fetchAndDecodeCheckInOrder : Obligations.FetchAndDecodeCheckInOrder := by
  intro s hr hl
  refine ⟨fun hout => ?pcOutside, fun hin hop => ?opcode, fun n hin hn hout => ?operandOutside,
    fun n hn hin => ?fetched⟩
  case pcOutside => exact exists_faultTaken_of_fetch_error hr hl (State.fetch_outside hout)
  case opcode => exact exists_faultTaken_of_fetch_error hr hl (State.fetch_invalidOpcode hin hop)
  case operandOutside =>
    exact exists_faultTaken_of_fetch_error hr hl (State.fetch_operandOutside hin hn hout)
  case fetched =>
    obtain ⟨i, hf, hop, rfl⟩ := State.exists_fetch hn hin
    have hstep := step_of_fetch hr hl hf
    refine ⟨i, hf, hop, rfl, fun k hk => ?_, fun _ => hstep, fun hill => ?_⟩
    · rw [State.encode_getD_of_fetch hf hk, Nat.add_assoc, Nat.add_comm 1 k]
    · rw [hstep]
      exact illegalOperandRaisesInvalidOperand i s hill

/-- Settles O24: a fetched instruction ends inside memory, far below where a 16-bit pc wraps. -/
theorem defaultNextNeverPassesMemory : Obligations.DefaultNextNeverPassesMemory := by
  intro s i hf
  have hend := State.encode_end_le (State.cellsFrom_of_fetch hf)
  have hsize := s.memSize_le
  refine ⟨hend, ?_⟩
  rw [State.advance_pc, BitVec.toNat_add, BitVec.toNat_ofNat]
  omega

/-- Settles O16: what stands at pc is what is fetched. -/
theorem stepRunsDecodedInstruction : Obligations.StepRunsDecodedInstruction := by
  refine ⟨fun s i hr hl hi hend hwords => ?fetched, fun s l hr hl => step_of_latch hr hl⟩
  have hcells := State.cellsFrom_eq_of_memRead hend hwords
  rw [Instr.encode_length] at hcells
  exact step_of_fetch hr hl (State.fetch_of_cellsFrom hi hcells)

/-! ## The wait for a character (40_execution_engine.md R70, R72) -/

theorem State.offered_deliver {s : State} (h : s.input = []) (c : Word) :
    (s.deliver c).offered = some c := by simp [State.offered, h]

theorem State.polled_deliver {s : State} (h : s.input = []) (c : Word) :
    (s.deliver c).polled = s := by
  cases s
  cases h
  rfl

/-- A character delivered to an empty port is the one a waiting `in` takes. -/
theorem State.receiving_deliver {s : State} (h : s.input = []) (c : Word) (ia : Cell) (r : Reg) :
    (s.deliver c).receiving ia r = { s.writeReg r (normalizeInput c) with
      pc := ia + 2#16, latch := none, events := s.events ++ [.in_ c] } := by
  rw [State.receiving, State.offered_deliver h, State.polled_deliver h]
  rfl

/-- A character delivered to an empty port completes the waiting `in`. -/
theorem step_deliver_of_latch {s : State} {l : Latch} {r : Reg} (hr : s.runState = .running)
    (hl : s.latch = some l) (hin : l.instr = .in_ (.reg r)) (hempty : s.input = []) (c : Word) :
    step (s.deliver c) = .next { s.writeReg r (normalizeInput c) with
      pc := l.ia + 2#16, latch := none, events := s.events ++ [.in_ c] } := by
  rw [step_of_latch (s := s.deliver c) hr hl, hin, exec_in_of_latch (s := s.deliver c) hl,
    State.receiving_deliver hempty]

/-- Settles O46: the completion with a delivered character carries the poll count along unread. -/
theorem waitingTimeDoesNotMatter : Obligations.WaitingTimeDoesNotMatter := by
  intro s c n h hwait hempty
  obtain ⟨l, hl⟩ := Option.ne_none_iff_exists'.1 hwait
  obtain ⟨-, ⟨r, hin⟩, -⟩ := h.latch_in l hl
  have hr := h.wait_running hwait
  exact ⟨_, step_deliver_of_latch hr hl hin hempty c, rfl,
    step_deliver_of_latch (s := { s with polls := s.polls + n }) hr hl hin hempty c⟩

/-! ## Which instructions jump (40_execution_engine.md R63, R64, R68) -/

/-- Settles O50, by the effects: what completes takes the default next, a completed `in` that of its
latched address. -/
theorem onlyFiveInstructionsJump : Obligations.OnlyFiveInstructionsJump := by
  intro i s t h hlatch
  cases effect_of_exec h with
  | compute | goOn | push | pop | wmem | out => exact .inr (.inl rfl)
  | receive hl => exact .inr (.inl (by rw [hlatch _ hl]; rfl))
  | jump _ hop =>
    have hsub : [6, 7, 8] ⊆ [6, 7, 8, 17, 18] := by decide
    exact .inr (.inr (hsub hop))
  | call | ret => exact .inr (.inr (by simp [Instr.opcode]))
  | _ => exact .inl rfl

end Sys2Proof.Machine
end

section
/-! PROOFS. Family 41_data_movement: what set, push, pop, rmem and wmem do, and the frames of the
register writers, the stack instructions and wmem. -/

namespace Sys2Proof.Machine

/-! ## What completes and what faults (41_data_movement.md R77 to R81) -/

/-- A Word widened to a cell keeps its value. -/
theorem Word.toNat_setWidth_cell (v : Word) : (v.setWidth 16).toNat = v.toNat :=
  BitVec.toNat_setWidth_of_le (by decide)

theorem State.stackFull_eq_false_iff (s : State) :
    s.stackFull = false ↔ s.params.stackCapacity ≠ some s.stack.length :=
  Bool.eq_false_iff.trans (not_congr s.stackFull_iff)

/-- `unary` with both slots legal writes one register and takes the default next. -/
theorem State.unary_of_resolve {s : State} {b : Operand} {vb : Word} (hb : s.resolve b = some vb)
    (r : Reg) (f : Word → Word) :
    s.unary (.reg r) b f = { s with regs := s.regs.set r (f vb), pc := s.pc + 3#16 } := by
  rw [State.unary, State.withDest_reg, State.withValue_of_resolve hb, State.writeReg,
    BitVec.setWidth_eq]
  rfl

theorem exec_push_of_resolve {s : State} {a : Operand} {v : Word} (ha : s.resolve a = some v) :
    exec (.push a) s = .next (s.pushing (v.setWidth 16) fun s' => s'.advance 1) :=
  congrArg Host.Outcome.next (State.withValue_of_resolve ha _)

theorem exec_pop_reg (r : Reg) (s : State) :
    exec (.pop (.reg r)) s =
      .next (s.popping (s.raise .stackUnderflow) fun e s' => (s'.writeReg r e).advance 1) := rfl

theorem exec_rmem_of_resolve {s : State} {b : Operand} {addr : Word}
    (hb : s.resolve b = some addr) (r : Reg) :
    exec (.rmem (.reg r) b) s =
      .next (s.readingCell addr fun w => (s.writeReg r w).advance 2) :=
  congrArg Host.Outcome.next (State.withValue_of_resolve hb _)

theorem exec_wmem_of_resolve {s : State} {a b : Operand} {addr v : Word}
    (ha : s.resolve a = some addr) (hb : s.resolve b = some v) :
    exec (.wmem a b) s =
      .next (s.writingCell addr (v.setWidth 16) fun s' => s'.advance 2) :=
  congrArg Host.Outcome.next
    ((State.withValue_of_resolve ha _).trans (State.withValue_of_resolve hb _))

/-- Settles O25: `set` is `unary` with the value itself as its result. -/
theorem setCopiesValue : Obligations.SetCopiesValue := fun r _ _ _ hb =>
  ⟨rfl, congrArg Host.Outcome.next (State.unary_of_resolve hb r id)⟩

/-- Settles O26: the stack has room, or its depth is STACK_CAPACITY. -/
theorem pushPutsValueOnTop : Obligations.PushPutsValueOnTop := by
  intro a s v ha
  rw [exec_push_of_resolve ha]
  refine ⟨rfl, fun hroom => ?room, fun hfull => ?full⟩
  case room =>
    rw [State.pushing_room (s.stackFull_eq_false_iff.2 hroom)]
    exact ⟨v.setWidth 16, Word.toNat_setWidth_cell v, rfl⟩
  case full =>
    rw [State.pushing_full (s.stackFull_iff.2 hfull)]
    exact ⟨_, rfl, rfl⟩

/-- Settles O27: the stack has a top, or is empty. -/
theorem popTakesTopOfStack : Obligations.PopTakesTopOfStack := by
  intro r s
  rw [exec_pop_reg]
  refine ⟨rfl, fun e rest hs => ?entry, fun hs => ?empty⟩
  case entry =>
    rw [State.popping_cons hs]
    exact ⟨e.setWidth 15, BitVec.toNat_setWidth .., rfl⟩
  case empty =>
    rw [State.popping_empty hs]
    exact ⟨_, rfl, rfl⟩

/-- Settles O28: the address lies inside memory, or at or above MEM_SIZE. -/
theorem rmemReadsCell : Obligations.RmemReadsCell := by
  intro r b s addr hb
  rw [exec_rmem_of_resolve hb]
  refine ⟨rfl, fun hin => ?inside, fun hout => ?outside⟩
  case inside =>
    rw [State.readingCell_inside hin]
    exact ⟨(s.memRead addr.toNat).setWidth 15, BitVec.toNat_setWidth .., rfl⟩
  case outside =>
    rw [State.readingCell_outside hout]
    exact ⟨_, rfl, rfl⟩

/-- Settles O29: as for `rmem`; the written cell is read back because memory is canonical. -/
theorem wmemWritesOneCell : Obligations.WmemWritesOneCell := by
  intro a b s addr v hwf ha hb
  rw [exec_wmem_of_resolve ha hb]
  refine ⟨rfl, fun hin => ?inside, fun hout => ?outside⟩
  case inside =>
    rw [State.writingCell_inside hin]
    refine ⟨_, rfl, rfl, ?written, fun c hc => ?other⟩
    case written =>
      rw [State.advance_memRead, State.memWrite_read_self hwf, Word.toNat_setWidth_cell]
    case other => rw [State.advance_memRead, State.memWrite_read_other s _ hc]
  case outside =>
    rw [State.writingCell_outside hout]
    exact ⟨_, rfl, rfl⟩

/-! ## What an effect leaves unchanged, by opcode (60_exceptions.md R108, R111) -/

/-- Only `push`, `pop`, `call` and `ret` touch the stack. -/
theorem Effect.stack_eq {s t : State} {i : Instr} (h : Effect s i t)
    (hop : i.opcode ∉ [2, 3, 17, 18]) : t.stack = s.stack := by
  cases h with
  | push | pop | call | ret => exact absurd (by simp [Instr.opcode]) hop
  | receive => exact s.polled_stack
  | _ => rfl

/-- Only `wmem` touches memory. -/
theorem Effect.sameMemory {s t : State} {i : Instr} (h : Effect s i t) (hop : i.opcode ≠ 16) :
    SameMemory s t := by
  obtain hmem | ⟨a, b, -, -, rfl, -⟩ := h.mem_cases
  · exact fun c => congrArg (Memory.read · c) hmem
  · exact absurd rfl hop

/-- Only `out` and `in` touch the ports. -/
theorem Effect.samePorts {s t : State} {i : Instr} (h : Effect s i t)
    (hop : i.opcode ∉ [19, 20]) : SamePorts s t := by
  cases h with
  | out | poll | receive => exact absurd (by simp [Instr.opcode]) hop
  | _ => exact ⟨rfl, rfl, rfl⟩

/-- But for `in`, which may latch itself, an instruction leaves the status registers alone, takes a
fault, or is one of the two clean halts. -/
theorem Effect.status_cases {s t : State} {i : Instr} (h : Effect s i t) (hop : i.opcode ≠ 20) :
    SameStatusOrFault s t ∨ (t = s.haltRun ∧ (i = .halt ∨ i = .ret ∧ s.stack = [])) := by
  cases h with
  | illegal | pushFull | popEmpty | divideByZero | rmemOutside | wmemOutside | callFull =>
    exact .inl (.inr ⟨_, rfl⟩)
  | halt => exact .inr ⟨rfl, .inl rfl⟩
  | retEmpty hs => exact .inr ⟨rfl, .inr ⟨rfl, hs⟩⟩
  | wait | poll | receive => exact absurd rfl hop
  | _ => exact .inl (.inl ⟨rfl, rfl, rfl, rfl⟩)

/-- The clean halts are those of `halt` and `ret`, opcodes 0 and 18. -/
theorem Effect.sameStatusOrFault {s t : State} {i : Instr} (h : Effect s i t)
    (hop : i.opcode ∉ [0, 18, 20]) : SameStatusOrFault s t := by
  obtain hstatus | ⟨-, rfl | ⟨rfl, -⟩⟩ := h.status_cases fun he => hop (by simp [he])
  · exact hstatus
  · exact absurd (by simp [Instr.opcode]) hop
  · exact absurd (by simp [Instr.opcode]) hop

/-! ## The frames -/

/-- Settles O53: none of the ten has an opcode that halts or touches the stack, memory, the ports or
the latch. -/
theorem registerWritersFrame : Obligations.RegisterWritersFrame := by
  intro i s t hi h
  have he := effect_of_exec h
  have hop : i.opcode ∉ [0, 2, 3, 16, 17, 18, 19, 20] := by
    obtain ⟨a, b, rfl | rfl | rfl⟩ | ⟨a, b, c, rfl | rfl | rfl | rfl | rfl | rfl | rfl⟩ := hi <;>
      simp [Instr.opcode]
  simp only [List.mem_cons, List.not_mem_nil, or_false, not_or] at hop
  exact ⟨he.sameRegsButDest, he.stack_eq (by simp [hop]), he.sameMemory (by simp [hop]), he.params,
    he.samePorts (by simp [hop]), he.sameStatusOrFault (by simp [hop])⟩

/-- Settles O55: none of the four has an opcode that touches memory, the ports or the latch, and the
clean halt is that of `ret`. -/
theorem stackInstructionsFrame : Obligations.StackInstructionsFrame := by
  intro i s t hi h
  have he := effect_of_exec h
  have hop : i.opcode ∉ [0, 16, 19, 20] := by
    obtain ⟨a, rfl | rfl | rfl⟩ | rfl := hi <;> simp [Instr.opcode]
  simp only [List.mem_cons, List.not_mem_nil, or_false, not_or] at hop
  refine ⟨he.sameRegsButDest, he.sameMemory (by simp [hop]), he.params,
    he.samePorts (by simp [hop]), (he.status_cases (by simp [hop])).imp_right ?halts⟩
  rintro ⟨rfl, rfl | ⟨rfl, hempty⟩⟩
  · exact absurd rfl hop.1
  · exact ⟨rfl, hempty, rfl, rfl, rfl, rfl⟩

/-- A cell that is not at the address slot a resolves to reads as before. -/
theorem memRead_eq_of_exec_wmem {a b : Operand} {s t : State} (h : exec (.wmem a b) s = .next t)
    {c : Nat} (hc : ∀ v, s.resolve a = some v → c ≠ v.toNat) : t.memRead c = s.memRead c := by
  by_contra hne
  obtain ⟨a', b', v, hi, ha, hv, -⟩ := onlyWmemChangesMemory _ s t c h hne
  cases hi
  exact hc v ha hv.symm

/-- Settles O56: `wmem` has no D slot, and its opcode neither halts nor touches the stack, the ports
or the latch. -/
theorem wmemFrame : Obligations.WmemFrame := by
  intro a b s t h
  have he := effect_of_exec h
  refine ⟨fun r => he.sameRegsButDest r (by simp [Instr.slots]),
    he.stack_eq (by simp [Instr.opcode]), he.params, he.samePorts (by simp [Instr.opcode]),
    he.sameStatusOrFault (by simp [Instr.opcode]),
    fun v ha c hc => memRead_eq_of_exec_wmem h ?resolved,
    fun ha c => memRead_eq_of_exec_wmem h ?unresolved⟩
  case resolved =>
    intro w hw
    cases ha.symm.trans hw
    exact hc
  case unresolved =>
    intro w hw
    cases ha.symm.trans hw

end Sys2Proof.Machine
end

section
/-! PROOFS. Family 42_arithmetic_logic: what eq, gt, add, mult, mod, and, or and not write, and the
division by zero. -/

namespace Sys2Proof.Machine

/-! ## What completes and what faults (42_arithmetic_logic.md R82 to R89) -/

theorem eq15_eq_ite_toNat (b c : Word) :
    eq15 b c = if b.toNat = c.toNat then 1#15 else 0#15 := by
  simp only [eq15, BitVec.toNat_inj]

/-- A register write of a Word and the default next after three operands, as one record update. -/
theorem State.writeReg_advance_three (s : State) (r : Reg) (v : Word) :
    (s.writeReg r v).advance 3 = { s with regs := s.regs.set r v, pc := s.pc + 4#16 } := by
  rw [State.writeReg, BitVec.setWidth_eq]
  rfl

/-- `binary` with its slots legal writes one register and takes the default next. -/
theorem State.binary_of_resolve {s : State} {b c : Operand} {vb vc : Word}
    (hb : s.resolve b = some vb) (hc : s.resolve c = some vc) (r : Reg) (f : Word → Word → Word) :
    s.binary (.reg r) b c f = { s with regs := s.regs.set r (f vb vc), pc := s.pc + 4#16 } := by
  rw [State.binary, State.withDest_reg, State.withValue_of_resolve hb,
    State.withValue_of_resolve hc, State.writeReg_advance_three]

/-- `mod` with its slots legal tests the divisor (42_arithmetic_logic.md R86). -/
theorem exec_mod_of_resolve {s : State} {b c : Operand} {vb vc : Word}
    (hb : s.resolve b = some vb) (hc : s.resolve c = some vc) (r : Reg) :
    exec (.mod (.reg r) b c) s =
      .next (if vc = 0#15 then s.raise .divideByZero
        else { s with regs := s.regs.set r (rem15 vb vc), pc := s.pc + 4#16 }) := by
  rw [exec, execMod, State.withDest_reg, State.withValue_of_resolve hb,
    State.withValue_of_resolve hc, State.writeReg_advance_three]

/-- Settles O30: both are `binary` with a comparison, whose result is read off the numbers. -/
theorem comparisonsWriteZeroOrOne : Obligations.ComparisonsWriteZeroOrOne := by
  intro r b c s vb vc hb hc
  refine ⟨rfl, rfl, ?eq, congrArg Host.Outcome.next (State.binary_of_resolve hb hc r gt15)⟩
  case eq =>
    rw [← eq15_eq_ite_toNat]
    exact congrArg Host.Outcome.next (State.binary_of_resolve hb hc r eq15)

/-- Settles O31: `add` is `binary` with the unit's sum. -/
theorem addWritesSumModulo : Obligations.AddWritesSumModulo := by
  intro r b c s vb vc hb hc
  obtain ⟨hadd, -⟩ := arithmeticUnitComputesModulo vb vc
  exact ⟨rfl, _, hadd, congrArg Host.Outcome.next (State.binary_of_resolve hb hc r add15)⟩

/-- Settles O32: `mult` is `binary` with the unit's product. -/
theorem multWritesProductModulo : Obligations.MultWritesProductModulo := by
  intro r b c s vb vc hb hc
  obtain ⟨-, hmul, -⟩ := arithmeticUnitComputesModulo vb vc
  exact ⟨rfl, _, hmul, congrArg Host.Outcome.next (State.binary_of_resolve hb hc r mul15)⟩

/-- Settles O33: the divisor has a remainder below it, or is 0 and the fault is taken. -/
theorem modWritesRemainderOrFaults : Obligations.ModWritesRemainderOrFaults := by
  intro r b c s vb vc hb hc
  obtain ⟨-, -, hrem, -⟩ := arithmeticUnitComputesModulo vb vc
  rw [exec_mod_of_resolve hb hc]
  refine ⟨rfl, fun hne => ?remainder, fun hzero => ?fault⟩
  case remainder =>
    have hbelow : (rem15 vb vc).toNat < vc.toNat := by
      rw [hrem hne]
      exact Nat.mod_lt _ (Nat.pos_of_ne_zero hne)
    rw [if_neg fun h0 => hne (by rw [h0]; rfl)]
    exact ⟨_, hrem hne, hbelow, rfl⟩
  case fault =>
    rw [if_pos (BitVec.eq_of_toNat_eq hzero)]
    exact ⟨_, rfl, rfl⟩

/-- Settles O34: `and` and `or` are `binary`, `not` is `unary`, with the unit's functions. -/
theorem bitwiseInstructionsWriteResult : Obligations.BitwiseInstructionsWriteResult := by
  intro r b c s vb vc hb hc
  obtain ⟨-, -, -, hand, hor, -, hnot, -⟩ := arithmeticUnitComputesModulo vb vc
  exact ⟨rfl, rfl, rfl,
    ⟨_, hand, congrArg Host.Outcome.next (State.binary_of_resolve hb hc r and15)⟩,
    ⟨_, hor, congrArg Host.Outcome.next (State.binary_of_resolve hb hc r or15)⟩,
    ⟨_, hnot, congrArg Host.Outcome.next (State.unary_of_resolve hb r not15)⟩⟩

end Sys2Proof.Machine
end

section
/-! PROOFS. Family 43_control_transfer: where jmp, jt, jf, call and ret go, the fault of a target
outside memory, and the frame of the jumps, noop and halt. -/

namespace Sys2Proof.Machine

/-! ## The frame (60_exceptions.md R108, R111) -/

/-- Settles O54: none of the five has a D slot, nor an opcode that touches the stack, memory, the
ports or the latch, and the clean halt is that of `halt`. -/
theorem jumpNoopHaltFrame : Obligations.JumpNoopHaltFrame := by
  intro i s t hi h
  have he := effect_of_exec h
  have hop : i.opcode ∉ [1, 3, 4, 5, 9, 10, 11, 12, 13, 14, 15, 20] ∧
      i.opcode ∉ [2, 3, 17, 18] ∧ i.opcode ≠ 16 ∧ i.opcode ∉ [19, 20] ∧ i.opcode ≠ 20 := by
    obtain ⟨a, rfl⟩ | ⟨a, b, rfl | rfl⟩ | rfl | rfl := hi <;> simp [Instr.opcode]
  obtain ⟨hdest, hstack, hmem, hports, hlatch⟩ := hop
  refine ⟨fun r => he.sameRegsButDest r fun hr => hdest ((Instr.exists_dest_iff i).1 ⟨_, hr⟩),
    he.stack_eq hstack, he.sameMemory hmem, he.params, he.samePorts hports,
    (he.status_cases hlatch).imp_right ?halts⟩
  rintro ⟨rfl, rfl | ⟨rfl, -⟩⟩
  · exact ⟨rfl, rfl, rfl, rfl, rfl⟩
  · exact absurd (by simp [Instr.opcode]) hstack

/-! ## Targets (43_control_transfer.md R90 to R94) -/

/-- A pc outside memory faults at the next fetch (40_execution_engine.md R64). -/
theorem exists_faultTaken_of_pc_outside {s : State} (hr : s.runState = .running)
    (hl : s.latch = none) (hout : s.memSize ≤ s.pc.toNat) :
    ∃ t, step s = .next t ∧ FaultTaken .memoryOutOfBounds s t :=
  exists_faultTaken_of_fetch_error hr hl (State.fetch_outside hout)

theorem exec_jmp_of_resolve {s : State} {a : Operand} {v : Word} (ha : s.resolve a = some v) :
    exec (.jmp a) s = .next { s with pc := v.setWidth 16 } :=
  congrArg Host.Outcome.next (State.withValue_of_resolve ha _)

theorem exec_jt_of_resolve {s : State} {a b : Operand} {va vb : Word}
    (ha : s.resolve a = some va) (hb : s.resolve b = some vb) :
    exec (.jt a b) s =
      .next (if isNonZero va then { s with pc := vb.setWidth 16 }
        else { s with pc := s.pc + 3#16 }) :=
  congrArg Host.Outcome.next
    ((State.withValue_of_resolve ha _).trans (State.withValue_of_resolve hb _))

theorem exec_jf_of_resolve {s : State} {a b : Operand} {va vb : Word}
    (ha : s.resolve a = some va) (hb : s.resolve b = some vb) :
    exec (.jf a b) s =
      .next (if isNonZero va then { s with pc := s.pc + 3#16 }
        else { s with pc := vb.setWidth 16 }) :=
  congrArg Host.Outcome.next
    ((State.withValue_of_resolve ha _).trans (State.withValue_of_resolve hb _))

theorem isNonZero_eq_true_iff (v : Word) : isNonZero v = true ↔ v.toNat ≠ 0 :=
  bne_iff_ne.trans (not_congr BitVec.toNat_inj.symm)

theorem exec_call_room {s : State} {a : Operand} {v : Word} (ha : s.resolve a = some v)
    (hroom : s.stackFull = false) :
    exec (.call a) s =
      .next { s with stack := (s.pc + 2#16) :: s.stack, pc := v.setWidth 16 } :=
  congrArg Host.Outcome.next
    ((State.withValue_of_resolve ha _).trans (State.pushing_room hroom _ _))

theorem exec_call_full {s : State} {a : Operand} {v : Word} (ha : s.resolve a = some v)
    (hfull : s.stackFull = true) : exec (.call a) s = .next (s.raise .stackOverflow) :=
  congrArg Host.Outcome.next
    ((State.withValue_of_resolve ha _).trans (State.pushing_full hfull _ _))

/-- A `call` that does not fault leaves its return address on top of the stack. -/
theorem stack_of_exec_call {s t : State} {a : Operand} {v : Word} (ha : s.resolve a = some v)
    (h : exec (.call a) s = .next t) (hok : t.runState ≠ .faulted) :
    t.stack = (s.pc + 2#16) :: s.stack := by
  cases hfull : s.stackFull with
  | true =>
    cases (exec_call_full ha hfull).symm.trans h
    exact absurd rfl hok
  | false =>
    cases (exec_call_room ha hfull).symm.trans h
    rfl

theorem exec_ret_empty {s : State} (hs : s.stack = []) :
    exec .ret s = .next { s with runState := .halted } :=
  congrArg Host.Outcome.next (State.popping_empty hs _ _)

theorem exec_ret_cons {s : State} {t : Cell} {rest : List Cell} (hs : s.stack = t :: rest) :
    exec .ret s = .next { s with stack := rest, pc := t } :=
  congrArg Host.Outcome.next (State.popping_cons hs _ _)

/-- Settles O37: the target is the Word widened, and the next fetch is at the target. -/
theorem jmpGoesToTarget : Obligations.JmpGoesToTarget := by
  intro a s v ha
  have htarget := Word.toNat_setWidth_cell v
  exact ⟨rfl, v.setWidth 16, htarget, exec_jmp_of_resolve ha,
    fun hr hl hout => exists_faultTaken_of_pc_outside hr hl (hout.trans_eq htarget.symm)⟩

/-- Settles O38: both instructions branch on the same test, with their targets exchanged. -/
theorem conditionalJumpsAreComplementary : Obligations.ConditionalJumpsAreComplementary := by
  intro a b s va vb ha hb
  rw [exec_jt_of_resolve ha hb, exec_jf_of_resolve ha hb]
  refine ⟨rfl, rfl, vb.setWidth 16, Word.toNat_setWidth_cell vb, fun hne => ?nonZero,
    fun hzero => ?zero⟩
  case nonZero =>
    have htest := (isNonZero_eq_true_iff va).2 hne
    exact ⟨by rw [if_pos htest], by rw [if_pos htest]⟩
  case zero =>
    have htest := mt (isNonZero_eq_true_iff va).1 (not_not_intro hzero)
    exact ⟨by rw [if_neg htest], by rw [if_neg htest]⟩

/-- Settles O39: the stack has room, or its depth is STACK_CAPACITY. -/
theorem callPushesReturnAddress : Obligations.CallPushesReturnAddress := fun _ s v ha =>
  ⟨rfl,
    fun hroom => ⟨v.setWidth 16, Word.toNat_setWidth_cell v,
      exec_call_room ha (s.stackFull_eq_false_iff.2 hroom)⟩,
    fun hfull => ⟨_, exec_call_full ha (s.stackFull_iff.2 hfull), rfl⟩⟩

/-- Settles O40: the stack is empty, or has a top, which behind a `call` is the return address. -/
theorem retReturnsOrHalts : Obligations.RetReturnsOrHalts := by
  intro s
  refine ⟨rfl, exec_ret_empty, fun t rest hs => ?entry, fun a v t u ha hcall hok hu => ?behindCall⟩
  case entry =>
    exact ⟨exec_ret_cons hs, fun hr hl hout => exists_faultTaken_of_pc_outside hr hl hout⟩
  case behindCall => exact exec_ret_cons (hu.trans (stack_of_exec_call ha hcall hok))

end Sys2Proof.Machine
end

section
/-! PROOFS. Family 44_system_io: halt, out, in and noop, the frame of the port instructions, and the
port transactions of a run. -/

namespace Sys2Proof.Machine

/-! ## The port transactions (44_system_io.md R100) -/

theorem Instr.ne_out_and_ne_in {i : Instr} {ops : List Nat} (hop : i.opcode ∈ ops)
    (hout : 19 ∉ ops) (hin : 20 ∉ ops) : (∀ a, i ≠ .out a) ∧ ∀ a, i ≠ .in_ a :=
  ⟨by rintro a rfl; exact hout hop, by rintro a rfl; exact hin hop⟩

/-- An effect that leaves RUN_STATE at Running makes the transaction of a completed `out` or `in`, or
none, and one that does not makes none. -/
theorem Effect.events_cases {s t : State} {i : Instr} (h : Effect s i t)
    (hr : s.runState = .running) :
    (t.events = s.events ∧
      (t.runState = .running → (∀ a, i ≠ .out a) ∧ ∀ a, i = .in_ a → t.latch ≠ none)) ∨
    (∃ a v, i = .out a ∧ s.resolve a = some v ∧ t.events = s.events ++ [.out v] ∧
      t.runState = .running) ∨
    (∃ a c, i = .in_ a ∧ s.latch ≠ none ∧ t.latch = none ∧ t.events = s.events ++ [.in_ c] ∧
      t.runState = .running) := by
  cases h with
  | illegal | pushFull | popEmpty | divideByZero | rmemOutside | wmemOutside | callFull
  | retEmpty | halt => exact .inl ⟨rfl, nofun⟩
  | compute _ _ hop | goOn hop | jump _ hop =>
    obtain ⟨hout, hin⟩ := Instr.ne_out_and_ne_in hop (by decide) (by decide)
    exact .inl ⟨rfl, fun _ => ⟨hout, fun a he => absurd he (hin a)⟩⟩
  | push | pop | wmem | call | ret => exact .inl ⟨rfl, fun _ => ⟨nofun, nofun⟩⟩
  | wait => exact .inl ⟨rfl, fun _ => ⟨nofun, fun _ _ => nofun⟩⟩
  | poll hl => exact .inl ⟨rfl, fun _ => ⟨nofun, fun _ _ => hl⟩⟩
  | out ha => exact .inr (.inl ⟨_, _, rfl, ha, rfl, hr⟩)
  | receive hl =>
    exact .inr (.inr ⟨_, _, rfl, by simp [hl], rfl, rfl, s.polled_runState.trans hr⟩)

/-- Settles O51: a step executes the latched or the fetched instruction, whose effects say what it
transacts; the fault of a failed fetch transacts nothing. -/
theorem transactionsAreCompletedOutAndIn : Obligations.TransactionsAreCompletedOutAndIn := by
  refine ⟨fun s t hstep hne => ?executed, fun i s t hr h => (effect_of_exec h).events_cases hr⟩
  obtain ⟨-, ⟨l, hl, hexec⟩ | ⟨i, -, hf, hexec⟩ | ⟨k, -, -, rfl⟩⟩ := step_cases hstep
  · exact ⟨l.instr, hexec, .inr ⟨l, hl, rfl⟩⟩
  · exact ⟨i, hexec, .inl hf⟩
  · exact absurd (s.raise_events k) hne

/-! ## The frame of the port instructions (44_system_io.md R97, R98; 60_exceptions.md R108) -/

/-- Only a waiting `in` looks at the input port. -/
theorem Effect.input_eq {s t : State} {i : Instr} (h : Effect s i t) (hop : i.opcode ≠ 20) :
    t.input = s.input ∧ t.polls = s.polls := by
  cases h with
  | poll | receive => exact absurd rfl hop
  | _ => exact ⟨rfl, rfl⟩

/-- Only `halt` and `ret` write RUN_STATE, FAULT_KIND or FAULT_PC without taking a fault. -/
theorem Effect.sameRunStateOrFault {s t : State} {i : Instr} (h : Effect s i t)
    (hop : i.opcode ∉ [0, 18]) :
    (t.runState = s.runState ∧ t.faultKind = s.faultKind ∧ t.faultPc = s.faultPc) ∨
      ∃ k, FaultTaken k s t := by
  cases h with
  | illegal | pushFull | popEmpty | divideByZero | rmemOutside | wmemOutside | callFull =>
    exact .inr ⟨_, rfl⟩
  | halt | retEmpty => exact absurd (by simp [Instr.opcode]) hop
  | receive => exact .inl ⟨s.polled_runState, s.polled_faultKind, s.polled_faultPc⟩
  | _ => exact .inl ⟨rfl, rfl, rfl⟩

/-- Settles O57: neither has an opcode that halts or touches the stack or memory, and `out` has no D
slot and does not look at the input port. -/
theorem portInstructionsFrame : Obligations.PortInstructionsFrame := by
  intro a s t
  refine ⟨fun h => ?out, fun h => ?in_⟩
  case out =>
    have he := effect_of_exec h
    obtain ⟨hinput, hpolls⟩ := he.input_eq (by simp [Instr.opcode])
    exact ⟨fun r => he.sameRegsButDest r (by simp [Instr.slots]),
      he.stack_eq (by simp [Instr.opcode]), he.sameMemory (by simp [Instr.opcode]), he.params,
      hinput, hpolls, he.sameStatusOrFault (by simp [Instr.opcode])⟩
  case in_ =>
    have he := effect_of_exec h
    exact ⟨he.sameRegsButDest, he.stack_eq (by simp [Instr.opcode]),
      he.sameMemory (by simp [Instr.opcode]), he.params,
      he.sameRunStateOrFault (by simp [Instr.opcode])⟩

/-! ## halt, out and noop (44_system_io.md R96, R97, R99) -/

/-- Settles O41: `halt` is the clean halt, after which the CORE takes no step. -/
theorem haltEndsRun : Obligations.HaltEndsRun := fun s =>
  have ⟨hhalted, _⟩ := stoppedCoreTakesNoStep s.haltRun
  ⟨rfl, rfl, hhalted s.haltRun_runState⟩

/-- Settles O42: the slot is legal, so `out` goes on with its value. -/
theorem outEmitsWord : Obligations.OutEmitsWord := fun _ _ _ ha =>
  ⟨rfl, congrArg Host.Outcome.next (State.withValue_of_resolve ha _)⟩

/-- Settles O44: `noop` is the default next of an instruction without operands. -/
theorem noopOnlyAdvances : Obligations.NoopOnlyAdvances := fun _ => ⟨rfl, rfl⟩

/-! ## The wait of `in` and its end (44_system_io.md R98; 40_execution_engine.md R70) -/

theorem exec_in_of_latch_none {s : State} (hl : s.latch = none) (r : Reg) :
    exec (.in_ (.reg r)) s = .next (s.wait (.in_ (.reg r))) := by
  rw [exec, execIn, State.withDest_reg, hl]

theorem normalizeInput_eq_ite_toNat (c : Word) :
    normalizeInput c = if c.toNat = 13 then 10#15 else c :=
  ite_congr (propext BitVec.toNat_inj.symm) (fun _ => rfl) fun _ => rfl

theorem State.offered_cons {s : State} {c : Word} {rest : List Word} (h : s.input = c :: rest) :
    s.offered = some c := by rw [State.offered, h]

theorem State.polled_cons {s : State} {c : Word} {rest : List Word} (h : s.input = c :: rest) :
    s.polled = { s with input := rest } := by rw [State.polled, h]

theorem State.offered_nil {s : State} (h : s.input = []) :
    s.offered = Config.freeOffer s.polls := by rw [State.offered, h]

theorem State.polled_nil {s : State} (h : s.input = []) :
    s.polled = { s with polls := s.polls + 1 } := by rw [State.polled, h]

theorem State.receiving_of_offered_none {s : State} (h : s.offered = none) (ia : Cell) (r : Reg) :
    s.receiving ia r = s.polled := by rw [State.receiving, h]

theorem State.receiving_of_offered {s : State} {c : Word} (h : s.offered = some c) (ia : Cell)
    (r : Reg) :
    s.receiving ia r = { s.polled with
      regs := s.regs.set r (if c.toNat = 13 then 10#15 else c), pc := ia + 2#16, latch := none,
      events := s.events ++ [.in_ c] } := by
  simp [State.receiving, h, normalizeInput_eq_ite_toNat]

/-- Settles O43: nothing is latched, or the waiting `in` takes a delivered character, or it looks at
an empty port, where the free value decides. -/
theorem inWaitsThenStoresCharacter : Obligations.InWaitsThenStoresCharacter := by
  intro r s
  refine ⟨rfl, fun hl => exec_in_of_latch_none hl r, fun l c rest hl hi => ?delivered,
    fun l hl hi => ?free⟩ <;> rw [exec_in_of_latch hl]
  case delivered =>
    rw [State.receiving_of_offered (State.offered_cons hi), State.polled_cons hi]
  case free =>
    have hoffer := State.offered_nil hi
    cases hfree : Config.freeOffer s.polls with
    | some c =>
      rw [State.receiving_of_offered (hoffer.trans hfree), State.polled_nil hi]
    | none =>
      rw [State.receiving_of_offered_none (hoffer.trans hfree), State.polled_nil hi]

end Sys2Proof.Machine
end

section
/-! PROOFS. Family 60_exceptions: what a fault and a clean halt write and where they come from, the
input port outside a wait, and RESET beside what it coincides with. -/

namespace Sys2Proof.Machine

/-! ## Faults and clean halts by their effects (60_exceptions.md R101 to R108, R111) -/

/-- The cause of each fault kind, in the state that a step faults from (60_exceptions.md R101 to
R107). -/
def FaultCause (s : State) : FaultKind → Prop
  | .invalidOperand => ∃ i, s.fetch = .ok i ∧ i.wellFormed = false
  | .stackUnderflow => s.stack = [] ∧ ∃ a, s.fetch = .ok (.pop a)
  | .divideByZero => ∃ a b c, s.fetch = .ok (.mod a b c) ∧ s.resolve c = some 0#15
  | .invalidOpcode => s.pc.toNat < s.memSize ∧ 22 ≤ (s.memRead s.pc.toNat).toNat
  | .memoryOutOfBounds =>
    s.memSize ≤ s.pc.toNat ∨
    (∃ n, arityOf (s.memRead s.pc.toNat).toNat = some n ∧ s.memSize ≤ s.pc.toNat + n) ∨
    (∃ a b v, s.fetch = .ok (.rmem a b) ∧ s.resolve b = some v ∧ s.memSize ≤ v.toNat) ∨
    (∃ a b v, s.fetch = .ok (.wmem a b) ∧ s.resolve a = some v ∧ s.memSize ≤ v.toNat)
  | .stackOverflow =>
    s.params.stackCapacity = some s.stack.length ∧
      ∃ a, s.fetch = .ok (.push a) ∨ s.fetch = .ok (.call a)

/-- An instruction that ends Faulted took one fault, and where it is the fetched one, for that
fault's cause. -/
theorem Effect.exists_faultTaken {s t : State} {i : Instr} (h : Effect s i t)
    (hr : s.runState = .running) (ht : t.runState = .faulted) :
    ∃ k, FaultTaken k s t ∧ (s.fetch = .ok i → FaultCause s k) := by
  cases h with
  | illegal hill => exact ⟨.invalidOperand, rfl, fun hf => ⟨i, hf, hill⟩⟩
  | popEmpty hs => exact ⟨.stackUnderflow, rfl, fun hf => ⟨hs, _, hf⟩⟩
  | divideByZero hc => exact ⟨.divideByZero, rfl, fun hf => ⟨_, _, _, hf, hc⟩⟩
  | rmemOutside hb hout =>
    exact ⟨.memoryOutOfBounds, rfl, fun hf => .inr (.inr (.inl ⟨_, _, _, hf, hb, hout⟩))⟩
  | wmemOutside ha hout =>
    exact ⟨.memoryOutOfBounds, rfl, fun hf => .inr (.inr (.inr ⟨_, _, _, hf, ha, hout⟩))⟩
  | pushFull hfull =>
    exact ⟨.stackOverflow, rfl, fun hf => ⟨s.stackFull_iff.1 hfull, _, .inl hf⟩⟩
  | callFull hfull =>
    exact ⟨.stackOverflow, rfl, fun hf => ⟨s.stackFull_iff.1 hfull, _, .inr hf⟩⟩
  | halt | retEmpty => cases ht
  | receive => cases (s.polled_runState.trans hr).symm.trans ht
  | _ => cases hr.symm.trans ht

/-- An instruction that ends Halted is one of the two clean halts. -/
theorem Effect.eq_haltRun {s t : State} {i : Instr} (h : Effect s i t)
    (hr : s.runState = .running) (ht : t.runState = .halted) :
    t = s.haltRun ∧ (i = .halt ∨ i = .ret ∧ s.stack = []) := by
  cases h with
  | halt => exact ⟨rfl, .inl rfl⟩
  | retEmpty hs => exact ⟨rfl, .inr ⟨rfl, hs⟩⟩
  | illegal | pushFull | popEmpty | divideByZero | rmemOutside | wmemOutside | callFull => cases ht
  | receive => cases (s.polled_runState.trans hr).symm.trans ht
  | _ => cases hr.symm.trans ht

/-! ## What a step executes (40_execution_engine.md R62, R70) -/

/-- Memory still holds the words of a latched instruction at pc, so it is what a fetch would give. -/
theorem State.Inv.fetch_of_latch {s : State} (h : s.Inv) {l : Latch} (hl : s.latch = some l) :
    s.fetch = .ok l.instr := by
  obtain ⟨-, ⟨r, hin⟩, hcells⟩ := h.latch_in l hl
  rw [hin] at hcells ⊢
  exact State.fetch_of_cellsFrom rfl hcells

/-- Under the invariant, the instruction a step executes is the one at pc, latched or not. -/
theorem step_cases_of_inv {s t : State} (h : s.Inv) (hstep : step s = .next t) :
    s.runState = .running ∧
    ((∃ i, s.fetch = .ok i ∧ Effect s i t) ∨ ∃ k, s.fetch = .error k ∧ t = s.raise k) := by
  obtain ⟨hr, ⟨l, hl, hexec⟩ | ⟨i, -, hf, hexec⟩ | ⟨k, -, hf, ht⟩⟩ := step_cases hstep
  · exact ⟨hr, .inl ⟨l.instr, h.fetch_of_latch hl, effect_of_exec hexec⟩⟩
  · exact ⟨hr, .inl ⟨i, hf, effect_of_exec hexec⟩⟩
  · exact ⟨hr, .inr ⟨k, hf, ht⟩⟩

theorem exists_arityOf_of_lt {op : Nat} (h : op < 22) : ∃ n, arityOf op = some n := by
  have hall : ∀ op < 22, (arityOf op).isSome := by decide
  exact Option.isSome_iff_exists.1 (hall op h)

/-- A failed fetch found its fault's cause, by the checks of 40_execution_engine.md R62 in order. -/
theorem faultCause_of_fetch_error {s : State} {k : FaultKind} (h : s.fetch = .error k) :
    FaultCause s k := by
  rcases Nat.lt_or_ge s.pc.toNat s.memSize with hin | hout
  · rcases Nat.lt_or_ge (s.memRead s.pc.toNat).toNat 22 with hlt | hop
    · obtain ⟨n, hn⟩ := exists_arityOf_of_lt hlt
      rcases Nat.lt_or_ge (s.pc.toNat + n) s.memSize with hend | hend
      · obtain ⟨i, hf, -⟩ := State.exists_fetch hn hend
        cases hf.symm.trans h
      · cases (State.fetch_operandOutside hin hn hend).symm.trans h
        exact .inr (.inl ⟨n, hn, hend⟩)
    · cases (State.fetch_invalidOpcode hin hop).symm.trans h
      exact ⟨hin, hop⟩
  · cases (State.fetch_outside hout).symm.trans h
    exact .inl hout

/-- A step that faults took one fault, for its cause. -/
theorem exists_faultTaken_of_step {s t : State} (h : s.Inv) (hstep : step s = .next t)
    (ht : t.runState = .faulted) : ∃ k, FaultTaken k s t ∧ FaultCause s k := by
  obtain ⟨hr, ⟨i, hf, he⟩ | ⟨k, hf, hraise⟩⟩ := step_cases_of_inv h hstep
  · obtain ⟨k, htaken, hcause⟩ := he.exists_faultTaken hr ht
    exact ⟨k, htaken, hcause hf⟩
  · exact ⟨k, hraise, faultCause_of_fetch_error hf⟩

/-! ## Faults and clean halts of a step -/

/-- Settles O21: the latched or fetched instruction takes the fault, or the failed fetch raises it. -/
theorem faultsArePrecise : Obligations.FaultsArePrecise := by
  intro s t hstep ht
  obtain ⟨hr, ⟨l, -, hexec⟩ | ⟨i, -, -, hexec⟩ | ⟨k, -, -, hraise⟩⟩ := step_cases hstep
  · obtain ⟨k, htaken, -⟩ := (effect_of_exec hexec).exists_faultTaken hr ht
    exact ⟨k, htaken⟩
  · obtain ⟨k, htaken, -⟩ := (effect_of_exec hexec).exists_faultTaken hr ht
    exact ⟨k, htaken⟩
  · exact ⟨k, hraise⟩

/-- Settles O22: the instruction at pc is one of the two that halt; a failed fetch faults. -/
theorem cleanHaltsChangeOnlyRunState : Obligations.CleanHaltsChangeOnlyRunState := by
  intro s t h hstep ht
  obtain ⟨hr, ⟨i, hf, he⟩ | ⟨k, -, rfl⟩⟩ := step_cases_of_inv h hstep
  · obtain ⟨heq, rfl | ⟨rfl, hs⟩⟩ := he.eq_haltRun hr ht
    · exact ⟨heq, .inl hf⟩
    · exact ⟨heq, .inr ⟨hf, hs⟩⟩
  · cases ht

/-- Settles O23: the fault taken is the one FAULT_KIND shows, and it has its cause. -/
theorem eachFaultKindHasItsCause : Obligations.EachFaultKindHasItsCause := by
  intro s t h hstep ht
  have hcause : ∀ k, t.faultKind = some k → FaultCause s k := by
    obtain ⟨k, rfl, hk⟩ := exists_faultTaken_of_step h hstep ht
    rintro _ ⟨⟩
    exact hk
  exact ⟨hcause .invalidOperand, hcause .stackUnderflow, hcause .divideByZero,
    hcause .invalidOpcode, hcause .memoryOutOfBounds, hcause .stackOverflow⟩

/-! ## Another input port (60_exceptions.md R113; 40_execution_engine.md R72) -/

/-- The same CORE with other characters at its input port and another poll count (log 3). -/
def State.withPort (s : State) (q : List Word) (n : Nat) : State := { s with input := q, polls := n }

section
variable {s : State} {q : List Word} {n : Nat}

theorem State.resolve_withPort (o : Operand) : (s.withPort q n).resolve o = s.resolve o := by
  cases o <;> rfl

theorem State.fetch_withPort : (s.withPort q n).fetch = s.fetch := by
  have hcells : (s.withPort q n).cellsFrom (s.withPort q n).pc.toNat 4 =
      s.cellsFrom s.pc.toNat 4 := State.cellsFrom_congr (fun _ => rfl) rfl _ _
  rw [State.fetch, State.fetch, hcells]

/-! An operation that goes on carries another port along when what it goes on with does; a checked
access and a push are tests that read nothing of the port, and so `ite_withPort` serves them all. -/

theorem State.withValue_withPort {o : Operand} {k k' : Word → State}
    (hk : ∀ v, k' v = (k v).withPort q n) :
    (s.withPort q n).withValue o k' = (s.withValue o k).withPort q n := by
  rw [State.withValue, State.withValue, State.resolve_withPort]
  cases s.resolve o with
  | some v => exact hk v
  | none => rfl

theorem State.withDest_withPort {o : Operand} {k k' : Reg → State}
    (hk : ∀ r, k' r = (k r).withPort q n) :
    (s.withPort q n).withDest o k' = (s.withDest o k).withPort q n := by
  cases o with
  | reg r => exact hk r
  | lit | invalid => rfl

theorem ite_withPort {p : Prop} [Decidable p] {s' t t' : State} (hs : s' = s.withPort q n)
    (ht : t' = t.withPort q n) : (if p then s' else t') = (if p then s else t).withPort q n := by
  rw [hs, ht, apply_ite (State.withPort · q n)]

theorem State.popping_withPort {onEmpty onEmpty' : State} {k : Cell → State → State}
    (hempty : onEmpty' = onEmpty.withPort q n)
    (hk : ∀ e (u : State), k e (u.withPort q n) = (k e u).withPort q n) :
    (s.withPort q n).popping onEmpty' k = (s.popping onEmpty k).withPort q n := by
  cases hs : s.stack with
  | nil => rw [State.popping_empty hs, State.popping_empty (s := s.withPort q n) hs, hempty]
  | cons e rest =>
    rw [State.popping_cons hs, State.popping_cons (s := s.withPort q n) hs]
    exact hk e { s with stack := rest }

theorem State.unary_withPort (a b : Operand) (f : Word → Word) :
    (s.withPort q n).unary a b f = (s.unary a b f).withPort q n :=
  State.withDest_withPort fun _ => State.withValue_withPort fun _ => rfl

theorem State.binary_withPort (a b c : Operand) (f : Word → Word → Word) :
    (s.withPort q n).binary a b c f = (s.binary a b c f).withPort q n :=
  State.withDest_withPort fun _ => State.withValue_withPort fun _ =>
    State.withValue_withPort fun _ => rfl

theorem exists_next_withPort {t t' : State} (h : t' = t.withPort q n) :
    ∃ u, (Host.Outcome.next t : Result) = .next u ∧
      (Host.Outcome.next t' : Result) = .next (u.withPort q n) :=
  ⟨t, rfl, congrArg Host.Outcome.next h⟩

/-- With nothing latched, no instruction looks at the input port. -/
theorem exec_withPort (hl : s.latch = none) (i : Instr) :
    ∃ t, exec i s = .next t ∧ exec i (s.withPort q n) = .next (t.withPort q n) := by
  cases i with
  | halt | noop => exact exists_next_withPort rfl
  | set a b | not a b => exact exists_next_withPort (State.unary_withPort _ _ _)
  | eq a b c | gt a b c | add a b c | mult a b c | and a b c | or a b c =>
    exact exists_next_withPort (State.binary_withPort _ _ _ _)
  | mod a b c =>
    exact exists_next_withPort (State.withDest_withPort fun _ => State.withValue_withPort fun _ =>
      State.withValue_withPort fun _ => ite_withPort rfl rfl)
  | jmp a | out a => exact exists_next_withPort (State.withValue_withPort fun _ => rfl)
  | jt a b | jf a b | wmem a b =>
    exact exists_next_withPort (State.withValue_withPort fun _ => State.withValue_withPort fun _ =>
      ite_withPort rfl rfl)
  | push a | call a =>
    exact exists_next_withPort (State.withValue_withPort fun _ => ite_withPort rfl rfl)
  | pop a =>
    exact exists_next_withPort (State.withDest_withPort fun _ =>
      State.popping_withPort rfl fun _ _ => rfl)
  | rmem a b =>
    exact exists_next_withPort (State.withDest_withPort fun _ => State.withValue_withPort fun _ =>
      ite_withPort rfl rfl)
  | ret => exact exists_next_withPort (State.popping_withPort rfl fun _ _ => rfl)
  | in_ a =>
    have hport : (s.withPort q n).latch = none := hl
    refine exists_next_withPort (State.withDest_withPort fun _ => ?_)
    rw [hl, hport]
    rfl

end

/-- Settles O45: the fetch and the executed instruction carry another port along. -/
theorem outsideWaitInputPortIsInvisible : Obligations.OutsideWaitInputPortIsInvisible := by
  intro s q n hl
  change step (s.withPort q n) = _
  obtain ⟨hhalted, hfaulted⟩ := stoppedCoreTakesNoStep s
  obtain ⟨hhalted', hfaulted'⟩ := stoppedCoreTakesNoStep (s.withPort q n)
  cases hr : s.runState with
  | halted => rw [hhalted hr, hhalted' hr]
  | faulted => rw [hfaulted hr, hfaulted' hr]
  | running =>
    cases hf : s.fetch with
    | ok i =>
      obtain ⟨t, ht, hport⟩ := exec_withPort (q := q) (n := n) hl i
      rw [step_of_fetch hr hl hf, ht,
        step_of_fetch (s := s.withPort q n) hr hl (State.fetch_withPort.trans hf), hport]
      rfl
    | error k =>
      rw [step_of_fetch_error hr hl hf,
        step_of_fetch_error (s := s.withPort q n) hr hl (State.fetch_withPort.trans hf)]
      rfl

/-! ## RESET beside what it coincides with (60_exceptions.md R114; 70_reset_and_hazards.md R118) -/

/-- Up to the input port, RESET depends on STACK_CAPACITY alone. -/
theorem State.resetPort_map_withPort {s t : State} (load : ImageLoad)
    (hc : t.params.stackCapacity = s.params.stackCapacity) (q : List Word) (n : Nat) :
    (t.resetPort load).map (·.withPort q n) = (s.resetPort load).map (·.withPort q n) := by
  unfold State.resetPort
  split
  · exact congrArg some (by simp [State.withPort, hc])
  · rfl

/-- RESET does to the port what the completed `in` did. -/
theorem resetPort_of_step_receive {s t : State} {c : Word} (load : ImageLoad) (h : s.Inv)
    (hwait : s.latch ≠ none) (ho : s.offered = some c) (hstep : step s = .next t) :
    t.resetPort load = s.resetPort load := by
  obtain ⟨l, hl⟩ := Option.ne_none_iff_exists'.1 hwait
  obtain ⟨-, ⟨r, hin⟩, -⟩ := h.latch_in l hl
  have hr := h.wait_running hwait
  rw [step_of_latch hr hl, hin, exec_in_of_latch hl, State.receiving_of_offered ho] at hstep
  cases hstep
  refine State.resetPort_congr load ?capacity ?input ?polls <;>
    simp [State.discardOffer_waiting hr hwait]

/-- Settles O58: what RESET keeps of a state is STACK_CAPACITY, which no step changes, and the input
port, of which it discards the character on offer to a waiting `in`. -/
theorem resetWinsOverWhatItCoincidesWith : Obligations.ResetWinsOverWhatItCoincidesWith := by
  intro s load
  refine ⟨fun _ => rfl, fun u hstep q n => ?due, fun u c h hwait ho hstep => ?offered,
    fun t c rest ht hr hwait hi => ?delivered, fun t ht hl => ?notWaiting⟩
  case due =>
    have hparams := parametersNeverChange s u hstep
    exact State.resetPort_map_withPort load (congrArg Params.stackCapacity hparams) q n
  case offered => exact resetPort_of_step_receive load h hwait ho hstep
  case delivered =>
    obtain ⟨hinput, -⟩ := State.resetPort_input ht
    rw [hinput, State.discardOffer_waiting hr hwait, State.polled_cons hi]
  case notWaiting =>
    obtain ⟨hinput, -⟩ := State.resetPort_input ht
    rw [hinput, State.discardOffer_of_latch_none hl]

end Sys2Proof.Machine
end

section
/-! PROOFS. Family 70_reset_and_hazards: which loads RESET accepts and the state an accepted load
gives. -/

namespace Sys2Proof.Machine

/-! ## The loaded cells (70_reset_and_hazards.md R118, R120; 10_state.md R24) -/

theorem loadedCells_length {load : ImageLoad} (h : load.image.length ≤ load.memSize) :
    (loadedCells load).length = load.memSize := by
  simp [loadedCells, h]

theorem loadedCells_getD_image {load : ImageLoad} {a : Nat} (h : a < load.image.length) (d : Cell) :
    (loadedCells load).getD a d = load.image.getD a d :=
  List.getD_append _ _ _ _ h

theorem loadedCells_getD_pad {load : ImageLoad} {a : Nat} (himage : load.image.length ≤ a)
    (ha : a < load.memSize) (d : Cell) : (loadedCells load).getD a d = load.pad a := by
  rw [loadedCells, List.getD_append_right _ _ _ _ himage, List.getD_eq_getElem _ _ (by simp; omega)]
  simp [Nat.add_sub_cancel' himage]

/-! ## RESET (70_reset_and_hazards.md R118, R120; 10_state.md R32) -/

theorem State.resetPort_isSome_iff (s : State) (load : ImageLoad) :
    (s.resetPort load).isSome = true ↔
      load.image.length ≤ load.memSize ∧ load.memSize ≤ 32768 := by
  unfold State.resetPort
  split <;> simp [*]

/-- The state after RESET is `State.reset` but for what the load brings, STACK_CAPACITY and the input
port; MEM_SIZE is the load's. -/
theorem State.eq_of_resetPort {s t : State} {load : ImageLoad} (h : s.resetPort load = some t) :
    ∃ m : Fin 32769, m.val = load.memSize ∧
      t = { State.reset with
        mem := Memory.ofCells 0 (loadedCells load)
        params := { memSize := m, stackCapacity := s.params.stackCapacity }
        input := s.discardOffer.input
        polls := s.discardOffer.polls } := by
  unfold State.resetPort at h
  split at h <;> cases h
  exact ⟨_, rfl, rfl⟩

/-- A load that RESET has accepted is within the bounds of R120. -/
theorem State.bounds_of_resetPort {s t : State} {load : ImageLoad} (h : s.resetPort load = some t) :
    load.image.length ≤ load.memSize ∧ load.memSize ≤ 32768 :=
  (s.resetPort_isSome_iff load).1 (by rw [h]; rfl)

theorem State.memRead_of_resetPort {s t : State} {load : ImageLoad} (h : s.resetPort load = some t)
    (a : Nat) : t.memRead a = (loadedCells load).getD a 0#16 := by
  obtain ⟨m, -, rfl⟩ := State.eq_of_resetPort h
  have hread := Memory.read_ofCells 0 a (loadedCells load)
  rwa [Nat.zero_add] at hread

/-- Settles O10: cell by cell memory is the loaded cells, and all else is `State.reset`'s but
MEM_SIZE and STACK_CAPACITY. -/
theorem resetPortLoadsImageAndPad : Obligations.ResetPortLoadsImageAndPad := by
  refine fun s load => ⟨s.resetPort_isSome_iff load, fun t h => ?_⟩
  have hread := State.memRead_of_resetPort h
  obtain ⟨m, hsize, rfl⟩ := State.eq_of_resetPort h
  refine ⟨fun a ha => ?image, fun a himage ha => ?pad, hsize, ?resetValues⟩
  case image => rw [hread, loadedCells_getD_image ha]
  case pad => rw [hread, loadedCells_getD_pad himage ha]
  case resetValues => exact ⟨rfl, RegFile.get_zero, rfl, rfl, rfl, rfl, rfl, rfl, rfl⟩

/-- Settles O12: the loaded cells lie below MEM_SIZE, the empty stack is within every capacity, and
the rest of the invariant is the reset state's. -/
theorem everyLoadSatisfiesInvariant : Obligations.EveryLoadSatisfiesInvariant := by
  intro s t load h
  obtain ⟨himage, -⟩ := State.bounds_of_resetPort h
  obtain ⟨m, hsize, rfl⟩ := State.eq_of_resetPort h
  have hbound : ∀ p ∈ Memory.ofCells 0 (loadedCells load), p.1 < m.val := by
    intro p hp
    obtain ⟨-, hlt, -⟩ := Memory.mem_ofCells hp
    rwa [Nat.zero_add, loadedCells_length himage, ← hsize] at hlt
  exact { resetSatisfiesInvariant with
    mem_wf := Memory.ofCells_wf 0 (loadedCells load)
    mem_bound := hbound
    stack_capacity := fun n _ => n.zero_le
    latch_in := fun _ hl => nomatch hl }

end Sys2Proof.Machine
end
